-- ==== Sys2Proof/Word.lean ====
section
/-! DEFINITION. The bit-vector types of best_cpu CORE (00_scope.md R5, R12; 30_encoding.md R81).
`u(v)` of R13 is `BitVec.toNat`, `s(v)` is `BitVec.toInt`. -/

namespace Sys2Proof

/-- A register, a memory word or an instruction word: XLEN = 32 bits (R5). -/
abbrev Word := BitVec 32

/-- One byte of the memory (10_state.md R34). -/
abbrev Byte := BitVec 8

/-- A four-bit field of the instruction word: the opcode index or a register index 0 to 15 (R81). -/
abbrev Field := BitVec 4

/-- The sixteen-bit `constant` field of the instruction word (R81). -/
abbrev Const := BitVec 16

end Sys2Proof
end

