-- ==== Sys2Proof/Config.lean ====
section
/-! DEFINITION. The implementation parameters (00_scope.md R5 to R8). -/

namespace Sys2Proof.Config

/-- N, the number of general-purpose registers (R6). -/
abbrev regCount : Nat := 8

/-- HANDLER_COUNT, the number of entries of the dispatch table (R8). -/
abbrev handlerCount : Nat := 13

/-- The least MEMSIZE that R7 allows. -/
abbrev memSizeMin : Nat := 4

/-- The greatest MEMSIZE that R7 allows. -/
abbrev memSizeMax : Nat := 2 ^ 32

/-- R7's constraint on MEMSIZE. -/
abbrev LegalMemSize (n : Nat) : Prop := memSizeMin ≤ n ∧ n ≤ memSizeMax

/-- The MEMSIZE of the one reset state the host's interface asks for. R7 leaves MEMSIZE an open
argument: the model takes it as the argument of `State.resetOf` and carries it as the length of the
memory. DESIGN CHOICE (log 1): 256, which R7 names for test vectors that state no size. Unsafe: a
claim about `State.reset` that needs this number says nothing of other sizes. -/
def memSize : Nat := 256

end Sys2Proof.Config
end

