-- ==== Sys2Proof/Syntax.lean ====
section
/-! DEFINITION. The instructions, one constructor per row of the opcode map (30_encoding.md R85),
each with the fields its opcode uses (R86); a field an opcode does not use is no part of the
instruction (R87, log 3). Also the five fields every word decodes to (R82). -/

namespace Sys2Proof

/-- What `decode(w)` of R82 returns: the five fields every 32-bit word has (R81, R84). -/
structure Fields where
  opcodeIndex : Field
  op1 : Field
  op2 : Field
  op3 : Field
  constant : Const
deriving DecidableEq, Repr

/-- The 13 instructions. A register operand is its four-bit field: 8 to 15 can be encoded, and
executing them faults (40_execution_cycle.md R115). Operands stand in field order. -/
inductive Instr where
  /-- FETCH ra, rd: `op1` the offset register, `op2` the destination (R141). -/
  | fetch (op1 op2 : Field)
  /-- STORE rs, ra: `op1` the source, `op2` the offset register (R142). -/
  | store (op1 op2 : Field)
  /-- SET rs, rd: `op1` the source, `op2` the destination (R151). -/
  | set (op1 op2 : Field)
  /-- ADD ra, rb, rd: `op1`, `op2` the sources, `op3` the destination (R161). -/
  | add (op1 op2 op3 : Field)
  /-- SUB ra, rb, rd: `op1` minuend, `op2` subtrahend, `op3` destination (R162). -/
  | sub (op1 op2 op3 : Field)
  /-- MUL ra, rb, rd: `op1`, `op2` the sources, `op3` the destination (R163). -/
  | mul (op1 op2 op3 : Field)
  /-- DIV ra, rb, rd: `op1` dividend, `op2` divisor, `op3` destination (R164). -/
  | div (op1 op2 op3 : Field)
  /-- SETC k, rd: `op1` the destination, `constant` the immediate (R152). -/
  | setc (op1 : Field) (constant : Const)
  /-- SHL, an unimplemented slot (R181). -/
  | shl
  /-- SHR, an unimplemented slot (R182). -/
  | shr
  /-- AND, an unimplemented slot (R183). -/
  | and
  /-- OR, an unimplemented slot (R184). -/
  | or
  /-- XOR, an unimplemented slot (R185). -/
  | xor
deriving DecidableEq, Repr

end Sys2Proof
end

