-- ==== Sys2Proof/WellFormed.lean ====
section
/-! DEFINITION. Well-formed instructions: every register field an opcode uses names one of the N
registers. 30_encoding.md R84 (90_conflicts.md C3): "each in `[0, N)`" describes well-formed
programs, not what the decoder can produce. -/

namespace Sys2Proof

/-- The register fields an instruction uses, in the order they are checked: `used(opcode)` of
40_execution_cycle.md R115. -/
def Instr.usedRegs : Instr → List Field
  | .fetch op1 op2 => [op1, op2]
  | .store op1 op2 => [op1, op2]
  | .set op1 op2 => [op1, op2]
  | .add op1 op2 op3 => [op1, op2, op3]
  | .sub op1 op2 op3 => [op1, op2, op3]
  | .mul op1 op2 op3 => [op1, op2, op3]
  | .div op1 op2 op3 => [op1, op2, op3]
  | .setc op1 _ => [op1]
  | .shl => []
  | .shr => []
  | .and => []
  | .or => []
  | .xor => []

/-- Every used register field is a register index below N. -/
abbrev Instr.WellFormed (i : Instr) : Prop := ∀ f ∈ i.usedRegs, f.toNat < Config.regCount

end Sys2Proof
end

