-- ==== Sys2Proof/Decode.lean ====
section
/-! DEFINITION. The decoder and the encoder (30_encoding.md R80 to R92). The instruction word is a
register's content, so it has no byte order (20_memory.md R54, R67). The bit positions, the opcode
numbers and the operand binding are the spec's decisions D1, D3, D7 (UNVERIFIED against the original
hardware, log 3). -/

namespace Sys2Proof

/-- `decode(w)` of R82: the five fields of R81, extracted from every word by position (R84). -/
def decodeFields (w : Word) : Fields where
  opcodeIndex := w.extractLsb' 28 4
  op1 := w.extractLsb' 24 4
  op2 := w.extractLsb' 20 4
  op3 := w.extractLsb' 16 4
  constant := w.extractLsb' 0 16

/-- `encode` of R92 on field tuples: the fields side by side, the opcode in the high bits. -/
def encodeFields (f : Fields) : Word :=
  f.opcodeIndex ++ f.op1 ++ f.op2 ++ f.op3 ++ f.constant

/-- The dispatch table (R85; 40_execution_cycle.md R122): position `i` takes the fields of a word
with opcode index `i` to its instruction, binding the operands as R86 says. -/
def dispatchTable : List (Fields → Instr) := [
  fun f => .fetch f.op1 f.op2,
  fun f => .store f.op1 f.op2,
  fun f => .set f.op1 f.op2,
  fun f => .add f.op1 f.op2 f.op3,
  fun f => .sub f.op1 f.op2 f.op3,
  fun f => .mul f.op1 f.op2 f.op3,
  fun f => .div f.op1 f.op2 f.op3,
  fun f => .setc f.op1 f.constant,
  fun _ => .shl,
  fun _ => .shr,
  fun _ => .and,
  fun _ => .or,
  fun _ => .xor]

/-- Why a word is no instruction: its opcode index is not below HANDLER_COUNT (R88). -/
inductive DecodeError where
  | invalidOpcode (opcodeIndex : Nat)
deriving DecidableEq, Repr

/-- The instruction a word stands for, or the rejection of the dispatch check (R88;
40_execution_cycle.md R113). Total on all words. -/
def decode (w : Word) : Except DecodeError Instr :=
  let f := decodeFields w
  match dispatchTable[f.opcodeIndex.toNat]? with
  | some row => .ok (row f)
  | none => .error (.invalidOpcode f.opcodeIndex.toNat)

/-- An instruction's fields, zero where its opcode uses none: the canonical encoding of R92 (D19). -/
def Instr.fields : Instr → Fields
  | .fetch op1 op2 => ⟨0, op1, op2, 0, 0⟩
  | .store op1 op2 => ⟨1, op1, op2, 0, 0⟩
  | .set op1 op2 => ⟨2, op1, op2, 0, 0⟩
  | .add op1 op2 op3 => ⟨3, op1, op2, op3, 0⟩
  | .sub op1 op2 op3 => ⟨4, op1, op2, op3, 0⟩
  | .mul op1 op2 op3 => ⟨5, op1, op2, op3, 0⟩
  | .div op1 op2 op3 => ⟨6, op1, op2, op3, 0⟩
  | .setc op1 constant => ⟨7, op1, 0, 0, constant⟩
  | .shl => ⟨8, 0, 0, 0, 0⟩
  | .shr => ⟨9, 0, 0, 0, 0⟩
  | .and => ⟨10, 0, 0, 0, 0⟩
  | .or => ⟨11, 0, 0, 0, 0⟩
  | .xor => ⟨12, 0, 0, 0, 0⟩

/-- The canonical word of an instruction (R92, R93's third column). -/
def encode (i : Instr) : Word := encodeFields i.fields

/-- The bits of the word an instruction's meaning depends on: the opcode index and the fields R86
marks as used. The others are ignored (R87). -/
def Instr.usedBits : Instr → Word
  | .fetch _ _ => 0xFFF00000
  | .store _ _ => 0xFFF00000
  | .set _ _ => 0xFFF00000
  | .add _ _ _ => 0xFFFF0000
  | .sub _ _ _ => 0xFFFF0000
  | .mul _ _ _ => 0xFFFF0000
  | .div _ _ _ => 0xFFFF0000
  | .setc _ _ => 0xFF00FFFF
  | .shl => 0xF0000000
  | .shr => 0xF0000000
  | .and => 0xF0000000
  | .or => 0xF0000000
  | .xor => 0xF0000000

/-- The instruction word whose low `nbits` bits are those of `w` and whose other bits are zero. -/
def tableWord (nbits w : Nat) : Word := BitVec.ofNat 32 (w % 2 ^ nbits)

/-- The instruction the decoder reads from an opcode-table row's bits. -/
def decodeTableWord (nbits w : Nat) : Option Instr :=
  match decode (tableWord nbits w) with
  | .ok i => some i
  | .error _ => none

end Sys2Proof
end

