-- ==== Sys2Proof/Machine/State.lean ====
section
/-! DEFINITION. The architectural state (10_state.md R20: exactly six things), the reasons a step can
stop (60_exceptions.md R210) and the state after reset (R38 to R41). -/

namespace Sys2Proof.Machine

/-- The memory: R34's "fixed-length byte buffer of size `MEMSIZE`". `size` is the buffer's length,
the parameter MEMSIZE (R7, log 1); no operation changes it. `cells` lists the nonzero bytes, offsets
strictly rising (log 10). -/
structure Memory where
  size : Nat
  cells : List Host.Cell
deriving DecidableEq, Repr

/-- The architectural state (R20). -/
structure State where
  /-- The general registers `x[0]` to `x[7]` (R21). -/
  x : Vector Word Config.regCount
  /-- `program_counter`: holds the instruction word itself, not an address (R27). -/
  pc : Word
  /-- The memory-address latch; the core never touches it (R30). -/
  memAddr : Word
  /-- The memory-data latch; the core never touches it (R31). -/
  memData : Word
  /-- The flags register; present but unused by the core (R32). -/
  flags : Word
  /-- The memory `data` (R34). -/
  mem : Memory
deriving DecidableEq, Repr

/-- The five faults of 60_exceptions.md R210, with the recorded value of R211 to R215 (log 11). The
hardware reports each and is left as it was before the step (R220); stopping there is safe. -/
inductive Fault where
  /-- A word access out of bounds at `offset` (R211). Raised by FETCH, STORE and the host's word
  transactions. Safe. -/
  | addressFault (offset : Word)
  /-- A general-register index of 8 or more (R212). Raised by FETCH, STORE, SET, ADD, SUB, MUL, DIV,
  SETC and the host's register transactions. Safe. -/
  | registerFault (index : Nat)
  /-- An opcode index of 13, 14 or 15 (R213). Raised by the dispatch check. Safe. -/
  | invalidOpcode (opcodeIndex : Nat)
  /-- DIV with a zero divisor (R214). Raised by DIV. Safe. -/
  | divisionByZero
  /-- One of the five unimplemented slots (R215). Raised by SHL, SHR, AND, OR, XOR, always. Safe. -/
  | notImplemented (opcodeIndex : Nat)
deriving DecidableEq, Repr

/-- Why the model gives an instruction no meaning. -/
inductive Refusal where
  /-- The instruction has no meaning in this model. No arm of `exec` raises it: every instruction is
  modelled. Safe. -/
  | notModelled (mnemonic : String)
deriving DecidableEq, Repr

/-- The machine right after reset with a memory of `memSize` bytes: everything zero (R38 to R41,
70_reset_and_hazards.md R250). MEMSIZE is the argument R7 asks for. -/
def State.resetOf (memSize : Nat) : State where
  x := Vector.replicate Config.regCount 0
  pc := 0
  memAddr := 0
  memData := 0
  flags := 0
  mem := { size := memSize, cells := [] }

/-- The machine right after reset, at the model's MEMSIZE (log 1). -/
def State.reset : State := State.resetOf Config.memSize

end Sys2Proof.Machine
end

