-- ==== Sys2Proof/Machine/Ops.lean ====
section
/-! DEFINITION. The operations every meaning is made of: registers (10_state.md R22), memory
(20_memory.md R53 to R58), instruction fetch (40_execution_cycle.md R112) and raising a fault
(60_exceptions.md R220). -/

namespace Sys2Proof.Machine

/-- A general-register index known to be below N. -/
abbrev Reg := Fin Config.regCount

/-- Reading `x[r]` (R22). -/
def State.readReg (s : State) (r : Reg) : Word := s.x[r]

/-- Writing `x[r] <- v` (R22); no register is hardwired (R23). -/
def State.writeReg (s : State) (r : Reg) (v : Word) : State := { s with x := s.x.set r v }

/-- What a memory byte that `cells` does not list reads as: zero, its reset value (R41). -/
def Memory.unlisted : Byte := 0

/-- The byte that a list of cells gives an offset: its first entry, or the unlisted value. -/
def lookupCell (a : Nat) : List Host.Cell → Byte
  | [] => Memory.unlisted
  | c :: cs => if c.1 = a then c.2 else lookupCell a cs

/-- A list of cells with one cell put before the first greater offset. -/
def insertCell (c : Host.Cell) : List Host.Cell → List Host.Cell
  | [] => [c]
  | d :: ds => if c.1 < d.1 then c :: d :: ds else d :: insertCell c ds

/-- `M[a]`, the byte at offset `a` (R34). The machine asks only for offsets below `size` (R58). -/
def Memory.byteAt (m : Memory) (a : Nat) : Byte := lookupCell a m.cells

/-- `M[a] <- b`. Writing the unlisted value leaves no entry, so that equal memories are equal data. -/
def Memory.writeByte (m : Memory) (a : Nat) (b : Byte) : Memory :=
  let others := m.cells.filter fun c => c.1 ≠ a
  { m with cells := if b = Memory.unlisted then others else insertCell (a, b) others }

/-- A word access at offset `o` is in bounds (R53): computed in unbounded integers, so it does not
wrap at 2^32 (log 5). -/
abbrev Memory.InBounds (m : Memory) (o : Word) : Prop := o.toNat + 4 ≤ m.size

/-- `MemRead(o, 4)` (R56): the four bytes at `o`, the lowest offset least significant (R54). -/
def Memory.readWord (m : Memory) (o : Word) : Except Fault Word :=
  if m.InBounds o then
    .ok (m.byteAt (o.toNat + 3) ++ m.byteAt (o.toNat + 2) ++ m.byteAt (o.toNat + 1) ++ m.byteAt o.toNat)
  else .error (.addressFault o)

/-- Byte `k` of a word, counted from the least significant (R54). -/
def byteOf (v : Word) (k : Nat) : Byte := v.extractLsb' (8 * k) 8

/-- `MemWrite(o, 4, v)` (R57). Out of bounds it touches no byte (R58). -/
def Memory.writeWord (m : Memory) (o : Word) (v : Word) : Except Fault Memory :=
  if m.InBounds o then
    .ok ((((m.writeByte o.toNat (byteOf v 0)).writeByte (o.toNat + 1) (byteOf v 1)).writeByte
      (o.toNat + 2) (byteOf v 2)).writeByte (o.toNat + 3) (byteOf v 3))
  else .error (.addressFault o)

/-- The canonical form of the memory: offsets strictly rising, every listed offset inside the
buffer, no entry equal to what an unlisted offset reads as. -/
abbrev Memory.wf (m : Memory) : Prop :=
  m.cells.Pairwise (fun c d => c.1 < d.1) ∧ ∀ c ∈ m.cells, c.1 < m.size ∧ c.2 ≠ Memory.unlisted

/-- Instruction fetch: a read of `pc` and nothing more (R112; 20_memory.md R67). -/
def fetchInstruction (s : State) : Word := s.pc

/-- The fault of a word that the dispatch check rejects (40_execution_cycle.md R113). -/
def dispatchFault : DecodeError → Fault
  | .invalidOpcode n => .invalidOpcode n

/-- Raising a fault (60_exceptions.md R220): the step ends and reports it. Nothing is saved, nothing
changes and control goes nowhere, so the outcome holds no state: the state stays the one before the
step (R121), which `hostStep` gives back to the host. There is no return from a fault (R222). -/
def raise (f : Fault) : Host.Outcome State Fault Refusal := .fault f

/-- How a handler ends: with the state its one write made (40_execution_cycle.md R117, R118), or with
the fault it raised before any write. -/
def finish : Except Fault State → Host.Outcome State Fault Refusal
  | .ok s => .next s
  | .error f => raise f

end Sys2Proof.Machine
end

