-- ==== Sys2Proof/Machine/Flags.lean ====
section
/-! DEFINITION. Integer results (43_alu_ops.md R160 to R169). No instruction computes a flag: a carry,
an overflow, a zero or a sign is recorded nowhere and `flags` is never written by the core (R166;
10_state.md R32), so what this file computes is the 32-bit result alone. -/

namespace Sys2Proof.Machine

/-- `wrap32(z)`: the pattern of the integer `z` modulo 2^32 (00_scope.md R13). -/
def wrap32 (z : Int) : Word := BitVec.ofInt 32 z

/-- The result of ADD (R161). -/
def addResult (a b : Word) : Word := wrap32 (a.toNat + b.toNat)

/-- The result of SUB (R162). -/
def subResult (a b : Word) : Word := wrap32 (a.toNat - b.toNat)

/-- The result of MUL, the low half of the product (R163). -/
def mulResult (a b : Word) : Word := wrap32 (a.toNat * b.toNat)

/-- The result of DIV: both operands signed (R165), the quotient rounded toward zero and wrapped, so
that -2^31 / -1 gives 0x80000000 (R169, D9, log 7); a zero divisor faults (R164). -/
def divResult (a b : Word) : Except Fault Word :=
  if b.toInt = 0 then .error .divisionByZero else .ok (wrap32 (Int.tdiv a.toInt b.toInt))

end Sys2Proof.Machine
end

