-- ==== Sys2Proof/Machine/Operands.lean ====
section
/-! DEFINITION. Operand forms (40_execution_cycle.md R114, R115): a general register, the memory word
at a register's value, the embedded constant. There is no other (30_encoding.md R83). -/

namespace Sys2Proof.Machine

/-- The register-index check of R115 and of the register file's `get` and `set` (10_state.md R22). -/
def resolveReg (index : Nat) : Except Fault Reg :=
  if h : index < Config.regCount then .ok ⟨index, h⟩ else .error (.registerFault index)

/-- Two register operands, checked in field order (R115, R116). -/
def resolveTwo (op1 op2 : Field) : Except Fault (Reg × Reg) := do
  let r1 ← resolveReg op1.toNat
  let r2 ← resolveReg op2.toNat
  return (r1, r2)

/-- Three register operands, checked in field order (R115, R116). -/
def resolveThree (op1 op2 op3 : Field) : Except Fault (Reg × Reg × Reg) := do
  let r1 ← resolveReg op1.toNat
  let r2 ← resolveReg op2.toNat
  let r3 ← resolveReg op3.toNat
  return (r1, r2, r3)

/-- The byte offset of a memory operand: the register's current value, with no displacement, index or
scaling (41_memory_ops.md R140). -/
def effectiveOffset (s : State) (offsetReg : Reg) : Word := s.readReg offsetReg

/-- The value of the constant operand: zero-extended, not shifted, not scaled (30_encoding.md R83,
D2, log 8). -/
def constantOperand (k : Const) : Word := k.setWidth 32

end Sys2Proof.Machine
end

