-- ==== Sys2Proof/Machine/AluInstrs.lean ====
section
/-! DEFINITION. ADD, SUB, MUL and DIV (43_alu_ops.md). -/

namespace Sys2Proof.Machine

/-- The frame of the four (R160, R167, R168): check the three register fields, read both sources,
compute, write the destination. -/
def execAlu (result : Word → Word → Except Fault Word) (op1 op2 op3 : Field) (s : State) :
    Host.Outcome State Fault Refusal := finish do
  let (ra, rb, rd) ← resolveThree op1 op2 op3
  let v ← result (s.readReg ra) (s.readReg rb)
  return s.writeReg rd v

/-- ADD ra, rb, rd (R161). -/
def execAdd (op1 op2 op3 : Field) (s : State) : Host.Outcome State Fault Refusal :=
  execAlu (fun a b => .ok (addResult a b)) op1 op2 op3 s

/-- SUB ra, rb, rd (R162). -/
def execSub (op1 op2 op3 : Field) (s : State) : Host.Outcome State Fault Refusal :=
  execAlu (fun a b => .ok (subResult a b)) op1 op2 op3 s

/-- MUL ra, rb, rd (R163). -/
def execMul (op1 op2 op3 : Field) (s : State) : Host.Outcome State Fault Refusal :=
  execAlu (fun a b => .ok (mulResult a b)) op1 op2 op3 s

/-- DIV ra, rb, rd (R164). -/
def execDiv (op1 op2 op3 : Field) (s : State) : Host.Outcome State Fault Refusal :=
  execAlu divResult op1 op2 op3 s

end Sys2Proof.Machine
end

