-- ==== Sys2Proof/Machine/MemoryInstrs.lean ====
section
/-! DEFINITION. FETCH and STORE (41_memory_ops.md). -/

namespace Sys2Proof.Machine

/-- FETCH ra, rd (R141). -/
def execFetch (op1 op2 : Field) (s : State) : Host.Outcome State Fault Refusal := finish do
  let (ra, rd) ← resolveTwo op1 op2
  let v ← s.mem.readWord (effectiveOffset s ra)
  return s.writeReg rd v

/-- STORE rs, ra (R142). -/
def execStore (op1 op2 : Field) (s : State) : Host.Outcome State Fault Refusal := finish do
  let (rs, ra) ← resolveTwo op1 op2
  let mem ← s.mem.writeWord (effectiveOffset s ra) (s.readReg rs)
  return { s with mem }

end Sys2Proof.Machine
end

