-- ==== Sys2Proof/Machine/MoveInstrs.lean ====
section
/-! DEFINITION. SET and SETC (42_move_ops.md). -/

namespace Sys2Proof.Machine

/-- SET rs, rd (R151). -/
def execSet (op1 op2 : Field) (s : State) : Host.Outcome State Fault Refusal := finish do
  let (rs, rd) ← resolveTwo op1 op2
  return s.writeReg rd (s.readReg rs)

/-- SETC k, rd (R152). -/
def execSetc (op1 : Field) (constant : Const) (s : State) : Host.Outcome State Fault Refusal := finish do
  let rd ← resolveReg op1.toNat
  return s.writeReg rd (constantOperand constant)

end Sys2Proof.Machine
end

