-- ==== Sys2Proof/Machine/UnimplementedInstrs.lean ====
section
/-! DEFINITION. The five unimplemented slots SHL, SHR, AND, OR, XOR (44_unimplemented_ops.md R180):
the spec gives each one effect, the fault NotImplemented, before any read or write. -/

namespace Sys2Proof.Machine

/-- SHL (R181). -/
def execShl (_s : State) : Host.Outcome State Fault Refusal := raise (.notImplemented 8)

/-- SHR (R182). -/
def execShr (_s : State) : Host.Outcome State Fault Refusal := raise (.notImplemented 9)

/-- AND (R183). -/
def execAnd (_s : State) : Host.Outcome State Fault Refusal := raise (.notImplemented 10)

/-- OR (R184). -/
def execOr (_s : State) : Host.Outcome State Fault Refusal := raise (.notImplemented 11)

/-- XOR (R185). -/
def execXor (_s : State) : Host.Outcome State Fault Refusal := raise (.notImplemented 12)

end Sys2Proof.Machine
end

