-- ==== Sys2Proof/Machine/Dispatch.lean ====
section
/-! DEFINITION. The handler of each instruction (40_execution_cycle.md R117, R122): one arm per
constructor, each one call of its meaning. -/

namespace Sys2Proof.Machine

/-- Performs one resolved instruction (R111, phases 4 and 5). -/
def exec (i : Instr) (s : State) : Host.Outcome State Fault Refusal :=
  match i with
  | .fetch op1 op2 => Sys2Proof.Machine.execFetch op1 op2 s
  | .store op1 op2 => Sys2Proof.Machine.execStore op1 op2 s
  | .set op1 op2 => Sys2Proof.Machine.execSet op1 op2 s
  | .add op1 op2 op3 => Sys2Proof.Machine.execAdd op1 op2 op3 s
  | .sub op1 op2 op3 => Sys2Proof.Machine.execSub op1 op2 op3 s
  | .mul op1 op2 op3 => Sys2Proof.Machine.execMul op1 op2 op3 s
  | .div op1 op2 op3 => Sys2Proof.Machine.execDiv op1 op2 op3 s
  | .setc op1 constant => Sys2Proof.Machine.execSetc op1 constant s
  | .shl => Sys2Proof.Machine.execShl s
  | .shr => Sys2Proof.Machine.execShr s
  | .and => Sys2Proof.Machine.execAnd s
  | .or => Sys2Proof.Machine.execOr s
  | .xor => Sys2Proof.Machine.execXor s

end Sys2Proof.Machine
end

