-- ==== Sys2Proof/Machine/Step.lean ====
section
/-! DEFINITION. The one transition of the machine, `step()` (40_execution_cycle.md R110, R111). -/

namespace Sys2Proof.Machine

/-- `step()` (R111): fetch the word from `pc`, decode it with the dispatch check, perform it. Nothing
else happens: `pc` does not advance (R118, 10_state.md R28). -/
def step (s : State) : Host.Outcome State Fault Refusal :=
  match decode (fetchInstruction s) with
  | .ok i => exec i s
  | .error e => raise (dispatchFault e)

/-- `s` with the instruction whose low `nbits` bits are `w` placed where the next step fetches: in
`pc`, as the host does with HostSetPC before every step (45_host_interface.md R192, log 2). -/
def State.withFetchWord (s : State) (nbits w : Nat) : State := { s with pc := tableWord nbits w }

end Sys2Proof.Machine
end

