-- ==== Sys2Proof/Machine/HostInterface.lean ====
section
/-! DEFINITION. What the host can do to the machine (45_host_interface.md R190 to R201): each
transaction is one indivisible function on the state, performed only between steps (R197), and leaves
the state as it was when it fails (R201; log 12, log 13). -/

namespace Sys2Proof.Machine

/-- The names of the four special-purpose registers (10_state.md R33). -/
inductive SpecialReg where
  | programCounter
  | memAddr
  | memData
  | flags
deriving DecidableEq, Repr

/-- What HostSnapshot returns (R196): the whole state, the memory byte by byte. -/
structure Snapshot where
  x : Vector Word Config.regCount
  pc : Word
  memAddr : Word
  memData : Word
  flags : Word
  data : List Byte
deriving DecidableEq, Repr

/-- The transactions of R191 to R196. A register index is any natural number (R193). -/
inductive Transaction where
  | step
  | setPC (w : Word)
  | getPC
  | getReg (i : Nat)
  | setReg (i : Nat) (v : Word)
  | getSpecial (name : SpecialReg)
  | setSpecial (name : SpecialReg) (v : Word)
  | readWord (o : Word)
  | writeWord (o v : Word)
  | snapshot
deriving DecidableEq, Repr

/-- What a transaction returns to the host. -/
inductive Reply where
  /-- Done, nothing to return (R191's `ok`, and the writes). -/
  | ok
  /-- The value read. -/
  | value (v : Word)
  /-- The snapshot taken. -/
  | snapshot (d : Snapshot)
  /-- `fault(kind, info)`; the state is unchanged (R201, R220). -/
  | fault (f : Fault)
  /-- The step had no meaning in the model; no step of this machine answers so. -/
  | refused (r : Refusal)
deriving DecidableEq, Repr

/-- HostStep (R191): one `step()`; after a fault the state is the one before it (R121, R220). -/
def hostStep (s : State) : Reply × State :=
  match step s with
  | .next t => (.ok, t)
  | .fault f => (.fault f, s)
  | .refused r => (.refused r, s)

/-- HostSetPC (R192). -/
def hostSetPC (w : Word) (s : State) : State := { s with pc := w }

/-- HostGetSpecial (R194). -/
def hostGetSpecial (name : SpecialReg) (s : State) : Word :=
  match name with
  | .programCounter => s.pc
  | .memAddr => s.memAddr
  | .memData => s.memData
  | .flags => s.flags

/-- HostSetSpecial (R194): any value, always valid. -/
def hostSetSpecial (name : SpecialReg) (v : Word) (s : State) : State :=
  match name with
  | .programCounter => { s with pc := v }
  | .memAddr => { s with memAddr := v }
  | .memData => { s with memData := v }
  | .flags => { s with flags := v }

/-- HostGetPC (R192). -/
def hostGetPC (s : State) : Word := hostGetSpecial .programCounter s

/-- HostGetReg (R193): the register file's `get`. -/
def hostGetReg (i : Nat) (s : State) : Except Fault Word := do
  let r ← resolveReg i
  return s.readReg r

/-- HostSetReg (R193): the register file's `set`. -/
def hostSetReg (i : Nat) (v : Word) (s : State) : Except Fault State := do
  let r ← resolveReg i
  return s.writeReg r v

/-- HostReadWord (R195): the memory's `read_word`. -/
def hostReadWord (o : Word) (s : State) : Except Fault Word := s.mem.readWord o

/-- HostWriteWord (R195): the memory's `write_word`. -/
def hostWriteWord (o v : Word) (s : State) : Except Fault State := do
  let mem ← s.mem.writeWord o v
  return { s with mem }

/-- HostSnapshot (R196): the state's registers and the bytes `M[0]` to `M[MEMSIZE-1]`. -/
def hostSnapshot (s : State) : Snapshot where
  x := s.x
  pc := s.pc
  memAddr := s.memAddr
  memData := s.memData
  flags := s.flags
  data := (List.range s.mem.size).map s.mem.byteAt

/-- A reading transaction: its value or its fault, the state unchanged (R201). -/
def replyRead (r : Except Fault Word) (s : State) : Reply × State :=
  match r with
  | .ok v => (.value v, s)
  | .error f => (.fault f, s)

/-- A writing transaction: the new state, or its fault with the state unchanged (R201). -/
def replyWrite (r : Except Fault State) (s : State) : Reply × State :=
  match r with
  | .ok t => (.ok, t)
  | .error f => (.fault f, s)

/-- One transaction of the host: what it returns and the state it leaves (R190). -/
def transact (t : Transaction) (s : State) : Reply × State :=
  match t with
  | .step => hostStep s
  | .setPC w => (.ok, hostSetPC w s)
  | .getPC => (.value (hostGetPC s), s)
  | .getReg i => replyRead (hostGetReg i s) s
  | .setReg i v => replyWrite (hostSetReg i v s) s
  | .getSpecial name => (.value (hostGetSpecial name s), s)
  | .setSpecial name v => (.ok, hostSetSpecial name v s)
  | .readWord o => replyRead (hostReadWord o s) s
  | .writeWord o v => replyWrite (hostWriteWord o v s) s
  | .snapshot => (.snapshot (hostSnapshot s), s)

/-- A session: transactions one after another in the host's order (R197; 20_memory.md R64), with
their replies; the host may go on after a fault (R201). -/
def session : List Transaction → State → List Reply × State
  | [], s => ([], s)
  | t :: ts, s =>
    let (reply, s') := transact t s
    let (replies, s'') := session ts s'
    (reply :: replies, s'')

/-- How running a list of instruction words ends (R199). -/
inductive RunResult where
  /-- Every word was stepped without a fault. -/
  | completed (s : State)
  /-- The step with ordinal `cycle`, counted from 1 by the host (60_exceptions.md R217), faulted; `s`
  is the state it left. -/
  | faulted (cycle : Nat) (f : Fault) (s : State)
  /-- A step had no meaning in the model; no step of this machine answers so. -/
  | refused (cycle : Nat) (r : Refusal) (s : State)
deriving DecidableEq, Repr

/-- `runFrom n ws s`: HostSetPC then HostStep for each word, stopping at the first fault, when the
host has already counted `n` steps (R199, R217). -/
def runFrom : Nat → List Word → State → RunResult
  | _, [], s => .completed s
  | n, w :: ws, s =>
    match step (hostSetPC w s) with
    | .next t => runFrom (n + 1) ws t
    | .fault f => .faulted (n + 1) f (hostSetPC w s)
    | .refused r => .refused (n + 1) r (hostSetPC w s)

/-- Running a program (R199). -/
def runProgram (ws : List Word) (s : State) : RunResult := runFrom 0 ws s

/-- Reset at any time has the effect of machine start, memory included (70_reset_and_hazards.md R250,
D20); the buffer keeps its length (log 12). -/
def resetMachine (s : State) : State := State.resetOf s.mem.size

/-- The fault codes of 60_exceptions.md R216 (0 is `ok`). No instruction can read one. -/
def Fault.code : Fault → Nat
  | .addressFault _ => 1
  | .registerFault _ => 2
  | .invalidOpcode _ => 3
  | .divisionByZero => 4
  | .notImplemented _ => 5

end Sys2Proof.Machine
end

