-- ==== Sys2Proof/Safety.lean ====
section
/-! DEFINITION. The terms in which claims about the machine are stated: the invariant, frames, exact
integer results, the order of checks, and what a safe step and a safe session are. -/

namespace Sys2Proof.Machine

/-- The invariant of every state between steps (10_state.md R42, R34): MEMSIZE is in R7's range and the
memory has its canonical form, so that nothing is stored outside `[0, MEMSIZE)`. -/
abbrev State.Inv (s : State) : Prop := Config.LegalMemSize s.mem.size ∧ s.mem.wf

/-- A safe step ends without a fault (00_scope.md R15). -/
def SafeStep (s : State) : Prop := ∃ t, step s = .next t

/-- A safe session: no transaction is answered by a fault. -/
def SafeSession (ts : List Transaction) (s : State) : Prop :=
  ∀ f, Reply.fault f ∉ (session ts s).1

/-- A session's transactions less those answered by a fault. -/
def withoutFaulted : List Transaction → State → List Transaction
  | [], _ => []
  | t :: ts, s =>
    match (transact t s).1 with
    | .fault _ => withoutFaulted ts (transact t s).2
    | _ => t :: withoutFaulted ts (transact t s).2

/-- The four special-purpose registers are the same. -/
def SameSpecials (s t : State) : Prop :=
  t.pc = s.pc ∧ t.memAddr = s.memAddr ∧ t.memData = s.memData ∧ t.flags = s.flags

/-- The memories have one length and read the same at every offset. -/
def SameMemory (s t : State) : Prop :=
  t.mem.size = s.mem.size ∧ ∀ a, t.mem.byteAt a = s.mem.byteAt a

/-- Nothing but general register `d` may differ. -/
def OnlyRegMayDiffer (d : Nat) (s t : State) : Prop :=
  (∀ (k : Nat) (h : k < Config.regCount), k ≠ d → t.x[k] = s.x[k]) ∧ SameSpecials s t ∧ SameMemory s t

/-- Nothing but the four memory bytes from offset `o` on may differ. -/
def OnlyWordMayDiffer (o : Nat) (s t : State) : Prop :=
  t.x = s.x ∧ SameSpecials s t ∧ t.mem.size = s.mem.size ∧
    ∀ a, ¬(o ≤ a ∧ a < o + 4) → t.mem.byteAt a = s.mem.byteAt a

/-- `p` is the 32-bit pattern of the integer `z` modulo 2^32: R13's `u(p) = z mod 2^32`. -/
def Wraps (p : Word) (z : Int) : Prop := (p.toNat : Int) = z % 2 ^ 32

/-- The little-endian value of the four bytes at offset `o` (20_memory.md R56). -/
def wordValue (m : Memory) (o : Nat) : Nat :=
  (m.byteAt o).toNat + 2 ^ 8 * (m.byteAt (o + 1)).toNat + 2 ^ 16 * (m.byteAt (o + 2)).toNat +
    2 ^ 24 * (m.byteAt (o + 3)).toNat

/-- Byte `k` of a word's value: `v[8k+7:8k]` by R12's formula. -/
def byteValue (v : Word) (k : Nat) : Nat := v.toNat / 2 ^ (8 * k) % 2 ^ 8

/-- Hexadecimal digit `k` of a word, digit 7 the most significant: `w[4k+3:4k]` by R12's formula. -/
def hexDigit (w : Word) (k : Nat) : Nat := w.toNat / 16 ^ k % 16

/-- The first register field that is no register index (40_execution_cycle.md R115). -/
def firstBadReg (used : List Field) : Option Nat :=
  (used.find? fun f => Config.regCount ≤ f.toNat).map fun f => f.toNat

/-- A bad register field among `used` makes `i` report RegisterFault with the first of them (R115). -/
def FaultsOnBadReg (used : List Field) (i : Instr) : Prop :=
  ∀ (s : State) (n : Nat), firstBadReg used = some n → exec i s = .fault (.registerFault n)

/-- `row` has opcode index `n` and its two register operands in `op1` and `op2`: every word with that
opcode decodes to it, and its canonical word is `0xnab00000` (30_encoding.md R85, R86, R93). -/
def EncodedTwoReg (n : Nat) (row : Field → Field → Instr) : Prop :=
  (∀ w : Word, hexDigit w 7 = n → ∃ op1 op2 : Field,
      op1.toNat = hexDigit w 6 ∧ op2.toNat = hexDigit w 5 ∧ decode w = .ok (row op1 op2)) ∧
    ∀ a b, (encode (row a b)).toNat = n * 2 ^ 28 + a.toNat * 2 ^ 24 + b.toNat * 2 ^ 20

/-- As `EncodedTwoReg`, with a third register operand in `op3`: canonical word `0xnabd0000`. -/
def EncodedThreeReg (n : Nat) (row : Field → Field → Field → Instr) : Prop :=
  (∀ w : Word, hexDigit w 7 = n → ∃ op1 op2 op3 : Field,
      op1.toNat = hexDigit w 6 ∧ op2.toNat = hexDigit w 5 ∧ op3.toNat = hexDigit w 4 ∧
        decode w = .ok (row op1 op2 op3)) ∧
    ∀ a b d, (encode (row a b d)).toNat =
      n * 2 ^ 28 + a.toNat * 2 ^ 24 + b.toNat * 2 ^ 20 + d.toNat * 2 ^ 16

/-- The digits of the word that opcode index `n` uses as register fields, in checking order (R115). -/
def usedDigits (n : Nat) : List Nat :=
  if n ≤ 2 then [6, 5] else if n ≤ 6 then [6, 5, 4] else if n = 7 then [6] else []

/-- General register `k`, for an index that may be out of range (then 0). -/
def regValue (s : State) (k : Nat) : Word := (s.x[k]?).getD 0

/-- The one fault that a step in state `s` must report, or none, read off the digits of the word in `pc`
in the order of 40_execution_cycle.md R116 and 60_exceptions.md R219. -/
def expectedFault (s : State) : Option Fault :=
  let opcode := hexDigit s.pc 7
  if Config.handlerCount ≤ opcode then some (.invalidOpcode opcode)
  else if 8 ≤ opcode then some (.notImplemented opcode)
  else match (usedDigits opcode).find? fun k => Config.regCount ≤ hexDigit s.pc k with
    | some k => some (.registerFault (hexDigit s.pc k))
    | none =>
      let first := regValue s (hexDigit s.pc 6)
      let second := regValue s (hexDigit s.pc 5)
      if opcode = 0 ∧ s.mem.size < first.toNat + 4 then some (.addressFault first)
      else if opcode = 1 ∧ s.mem.size < second.toNat + 4 then some (.addressFault second)
      else if opcode = 6 ∧ second = 0 then some .divisionByZero
      else none

/-- Register field `d` names a register, which `t` holds at a value with property `p`; nothing else differs,
all of memory reads as before. -/
def WritesReg (d : Field) (p : Word → Prop) (s t : State) : Prop :=
  ∃ h : d.toNat < Config.regCount, p t.x[d.toNat] ∧ OnlyRegMayDiffer d.toNat s t

/-- The one write of the instruction's own rule (40_execution_cycle.md R118; R141, R142, R151, R152, R161 to
R164): its place, its value, and nothing else changed. STORE writes the four bytes at the offset its meaning
computes; every other form writes its destination register; an unimplemented slot has no successful step. -/
def EffectOf : Instr → State → State → Prop
  | .fetch op1 op2, s, t =>
    let o := (regValue s op1.toNat).toNat
    o + 4 ≤ s.mem.size ∧ WritesReg op2 (fun v => v.toNat = wordValue s.mem o) s t
  | .store op1 op2, s, t => ∃ h : op2.toNat < Config.regCount,
    let o := (effectiveOffset s ⟨op2.toNat, h⟩).toNat
    o + 4 ≤ s.mem.size ∧
      (∀ k, k < 4 → (t.mem.byteAt (o + k)).toNat = byteValue (regValue s op1.toNat) k) ∧ OnlyWordMayDiffer o s t
  | .set op1 op2, s, t => WritesReg op2 (fun v => v = regValue s op1.toNat) s t
  | .add op1 op2 op3, s, t =>
    WritesReg op3 (fun v => Wraps v ((regValue s op1.toNat).toNat + (regValue s op2.toNat).toNat)) s t
  | .sub op1 op2 op3, s, t =>
    WritesReg op3 (fun v => Wraps v ((regValue s op1.toNat).toNat - (regValue s op2.toNat).toNat)) s t
  | .mul op1 op2 op3, s, t =>
    WritesReg op3 (fun v => Wraps v ((regValue s op1.toNat).toNat * (regValue s op2.toNat).toNat)) s t
  | .div op1 op2 op3, s, t => regValue s op2.toNat ≠ 0 ∧
    WritesReg op3 (fun v => Wraps v (Int.tdiv (regValue s op1.toNat).toInt (regValue s op2.toNat).toInt)) s t
  | .setc op1 k, s, t => WritesReg op1 (fun v => v.toNat = k.toNat) s t
  | .shl, _, _ => False
  | .shr, _, _ => False
  | .and, _, _ => False
  | .or, _, _ => False
  | .xor, _, _ => False

/-- The table of 60_exceptions.md R218: which instruction can raise which fault. -/
def mayRaise : Instr → Fault → Prop
  | .fetch op1 op2, f => (∃ n, f = .registerFault n ∧ n ∈ [op1.toNat, op2.toNat]) ∨ ∃ o, f = .addressFault o
  | .store op1 op2, f => (∃ n, f = .registerFault n ∧ n ∈ [op1.toNat, op2.toNat]) ∨ ∃ o, f = .addressFault o
  | .set op1 op2, f => ∃ n, f = .registerFault n ∧ n ∈ [op1.toNat, op2.toNat]
  | .add op1 op2 op3, f => ∃ n, f = .registerFault n ∧ n ∈ [op1.toNat, op2.toNat, op3.toNat]
  | .sub op1 op2 op3, f => ∃ n, f = .registerFault n ∧ n ∈ [op1.toNat, op2.toNat, op3.toNat]
  | .mul op1 op2 op3, f => ∃ n, f = .registerFault n ∧ n ∈ [op1.toNat, op2.toNat, op3.toNat]
  | .div op1 op2 op3, f =>
    (∃ n, f = .registerFault n ∧ n ∈ [op1.toNat, op2.toNat, op3.toNat]) ∨ f = .divisionByZero
  | .setc op1 _, f => f = .registerFault op1.toNat
  | .shl, f => f = .notImplemented 8
  | .shr, f => f = .notImplemented 9
  | .and, f => f = .notImplemented 10
  | .or, f => f = .notImplemented 11
  | .xor, f => f = .notImplemented 12

/-- An outcome with its next state changed by `g`; a fault or a refusal as it is. -/
def mapNext (g : State → State) : Host.Outcome State Fault Refusal → Host.Outcome State Fault Refusal
  | .next t => .next (g t)
  | .fault f => .fault f
  | .refused r => .refused r

end Sys2Proof.Machine
end

