-- ==== Sys2Proof/Certificates/Slice0/Obligations.lean ====
section
/-! DEFINITION. The statements for the provers. Where a statement rests on the spec's own decision or
derivation, or on a choice of this model, its docstring says so and names the log entry. -/

open Sys2Proof Sys2Proof.Machine

/-! ### The instructions -/

/-- R141: FETCH's encoding, its loaded word, its frame, its two faults. The byte order and the encoding
are the spec's decisions (logs 3, 4). -/
def Obligations.FetchLoadsWordAtRegisterOffset : Prop :=
  EncodedTwoReg 0 .fetch ∧
  (∀ (op1 op2 : Field) (s : State) (h1 : op1.toNat < Config.regCount) (h2 : op2.toNat < Config.regCount),
    s.x[op1.toNat].toNat + 4 ≤ s.mem.size →
      ∃ t, exec (.fetch op1 op2) s = .next t ∧
        t.x[op2.toNat].toNat = wordValue s.mem s.x[op1.toNat].toNat ∧ OnlyRegMayDiffer op2.toNat s t) ∧
  (∀ (op1 op2 : Field) (s : State) (h1 : op1.toNat < Config.regCount), op2.toNat < Config.regCount →
    s.mem.size < s.x[op1.toNat].toNat + 4 →
      exec (.fetch op1 op2) s = .fault (.addressFault s.x[op1.toNat])) ∧
  ∀ op1 op2, FaultsOnBadReg [op1, op2] (.fetch op1 op2)

/-- R142: STORE's encoding, the four bytes it writes at the offset that its meaning computes
(`effectiveOffset`, the value of the offset register), its frame, its two faults (logs 3, 4). -/
def Obligations.StoreWritesFourBytesAtRegisterOffset : Prop :=
  EncodedTwoReg 1 .store ∧
  (∀ (op1 op2 : Field) (s : State) (h1 : op1.toNat < Config.regCount) (h2 : op2.toNat < Config.regCount)
      (o : Word), effectiveOffset s ⟨op2.toNat, h2⟩ = o →
    o = s.x[op2.toNat] ∧
    (o.toNat + 4 ≤ s.mem.size →
      ∃ t, exec (.store op1 op2) s = .next t ∧
        (∀ k, k < 4 → (t.mem.byteAt (o.toNat + k)).toNat = byteValue s.x[op1.toNat] k) ∧
        OnlyWordMayDiffer o.toNat s t) ∧
    (s.mem.size < o.toNat + 4 → exec (.store op1 op2) s = .fault (.addressFault o))) ∧
  ∀ op1 op2, FaultsOnBadReg [op1, op2] (.store op1 op2)

/-- R151: SET's encoding, its copy, its frame, its one fault. -/
def Obligations.SetCopiesRegister : Prop :=
  EncodedTwoReg 2 .set ∧
  (∀ (op1 op2 : Field) (s : State) (h1 : op1.toNat < Config.regCount) (h2 : op2.toNat < Config.regCount),
    ∃ t, exec (.set op1 op2) s = .next t ∧ t.x[op2.toNat] = s.x[op1.toNat] ∧
      OnlyRegMayDiffer op2.toNat s t) ∧
  ∀ op1 op2, FaultsOnBadReg [op1, op2] (.set op1 op2)

/-- R161: ADD's encoding, its sum modulo 2^32, its frame (no flag is written), its one fault. -/
def Obligations.AddWritesWrappedSum : Prop :=
  EncodedThreeReg 3 .add ∧
  (∀ (op1 op2 op3 : Field) (s : State) (h1 : op1.toNat < Config.regCount)
      (h2 : op2.toNat < Config.regCount) (h3 : op3.toNat < Config.regCount),
    ∃ t, exec (.add op1 op2 op3) s = .next t ∧
      Wraps t.x[op3.toNat] (s.x[op1.toNat].toNat + s.x[op2.toNat].toNat) ∧
      OnlyRegMayDiffer op3.toNat s t) ∧
  ∀ op1 op2 op3, FaultsOnBadReg [op1, op2, op3] (.add op1 op2 op3)

/-- R162: SUB's encoding, its difference modulo 2^32 (first operand minus second), its frame, its one
fault. -/
def Obligations.SubWritesWrappedDifference : Prop :=
  EncodedThreeReg 4 .sub ∧
  (∀ (op1 op2 op3 : Field) (s : State) (h1 : op1.toNat < Config.regCount)
      (h2 : op2.toNat < Config.regCount) (h3 : op3.toNat < Config.regCount),
    ∃ t, exec (.sub op1 op2 op3) s = .next t ∧
      Wraps t.x[op3.toNat] (s.x[op1.toNat].toNat - s.x[op2.toNat].toNat) ∧
      OnlyRegMayDiffer op3.toNat s t) ∧
  ∀ op1 op2 op3, FaultsOnBadReg [op1, op2, op3] (.sub op1 op2 op3)

/-- R163: MUL's encoding, the low 32 bits of its product, its frame, its one fault. -/
def Obligations.MulWritesLowProduct : Prop :=
  EncodedThreeReg 5 .mul ∧
  (∀ (op1 op2 op3 : Field) (s : State) (h1 : op1.toNat < Config.regCount)
      (h2 : op2.toNat < Config.regCount) (h3 : op3.toNat < Config.regCount),
    ∃ t, exec (.mul op1 op2 op3) s = .next t ∧
      Wraps t.x[op3.toNat] (s.x[op1.toNat].toNat * s.x[op2.toNat].toNat) ∧
      OnlyRegMayDiffer op3.toNat s t) ∧
  ∀ op1 op2 op3, FaultsOnBadReg [op1, op2, op3] (.mul op1 op2 op3)

/-- R164 (operands read signed, R165): DIV's encoding, its quotient, its frame, its two faults. -/
def Obligations.DivWritesTruncatedSignedQuotient : Prop :=
  EncodedThreeReg 6 .div ∧
  (∀ (op1 op2 op3 : Field) (s : State) (h1 : op1.toNat < Config.regCount)
      (h2 : op2.toNat < Config.regCount) (h3 : op3.toNat < Config.regCount),
    (s.x[op2.toNat] ≠ 0 →
      ∃ t, exec (.div op1 op2 op3) s = .next t ∧
        Wraps t.x[op3.toNat] (Int.tdiv s.x[op1.toNat].toInt s.x[op2.toNat].toInt) ∧
        OnlyRegMayDiffer op3.toNat s t) ∧
    (s.x[op2.toNat] = 0 → exec (.div op1 op2 op3) s = .fault .divisionByZero)) ∧
  ∀ op1 op2 op3, FaultsOnBadReg [op1, op2, op3] (.div op1 op2 op3)

/-- R152: SETC's encoding, its zero-extended constant (D2, log 8), its frame, its one fault. -/
def Obligations.SetcLoadsZeroExtendedConstant : Prop :=
  (∀ w : Word, hexDigit w 7 = 7 → ∃ (op1 : Field) (k : Const),
    op1.toNat = hexDigit w 6 ∧ k.toNat = w.toNat % 2 ^ 16 ∧ decode w = .ok (.setc op1 k)) ∧
  (∀ (op1 : Field) (k : Const),
    (encode (.setc op1 k)).toNat = 7 * 2 ^ 28 + op1.toNat * 2 ^ 24 + k.toNat) ∧
  (∀ (op1 : Field) (k : Const) (s : State) (h1 : op1.toNat < Config.regCount),
    ∃ t, exec (.setc op1 k) s = .next t ∧ t.x[op1.toNat].toNat = k.toNat ∧
      OnlyRegMayDiffer op1.toNat s t) ∧
  ∀ op1 k, FaultsOnBadReg [op1] (.setc op1 k)

/-- R181 to R185: each of the five unimplemented slots reports NotImplemented with its opcode index,
from every state and whatever the other 28 bits hold, and the host finds the state unchanged. -/
def Obligations.UnimplementedSlotsAlwaysFault : Prop :=
  (∀ s, exec .shl s = .fault (.notImplemented 8) ∧ exec .shr s = .fault (.notImplemented 9) ∧
    exec .and s = .fault (.notImplemented 10) ∧ exec .or s = .fault (.notImplemented 11) ∧
    exec .xor s = .fault (.notImplemented 12)) ∧
  ([encode .shl, encode .shr, encode .and, encode .or, encode .xor] =
    [0x80000000, 0x90000000, 0xA0000000, 0xB0000000, 0xC0000000]) ∧
  (∀ w : Word, (hexDigit w 7 = 8 → decode w = .ok .shl) ∧ (hexDigit w 7 = 9 → decode w = .ok .shr) ∧
    (hexDigit w 7 = 10 → decode w = .ok .and) ∧ (hexDigit w 7 = 11 → decode w = .ok .or) ∧
    (hexDigit w 7 = 12 → decode w = .ok .xor)) ∧
  ∀ s : State, 8 ≤ hexDigit s.pc 7 → hexDigit s.pc 7 ≤ 12 →
    hostStep s = (.fault (.notImplemented (hexDigit s.pc 7)), s)

/-- R160 with GK1 of the spec (general knowledge, so derived): the results of ADD, SUB and MUL are also
the wrapped results of the signed readings. -/
def Obligations.AddSubMulAgreeSignedAndUnsigned : Prop :=
  ∀ (op1 op2 op3 : Field) (s : State) (h1 : op1.toNat < Config.regCount)
      (h2 : op2.toNat < Config.regCount) (h3 : op3.toNat < Config.regCount),
    (∃ t, exec (.add op1 op2 op3) s = .next t ∧
      Wraps t.x[op3.toNat] (s.x[op1.toNat].toInt + s.x[op2.toNat].toInt)) ∧
    (∃ t, exec (.sub op1 op2 op3) s = .next t ∧
      Wraps t.x[op3.toNat] (s.x[op1.toNat].toInt - s.x[op2.toNat].toInt)) ∧
    ∃ t, exec (.mul op1 op2 op3) s = .next t ∧
      Wraps t.x[op3.toNat] (s.x[op1.toNat].toInt * s.x[op2.toNat].toInt)

/-- The magnitude and sign of DIV's quotient (GK3 of the spec, so derived), for every pair of operands
but the one that overflows. -/
def Obligations.DivQuotientMagnitudeAndSign : Prop :=
  ∀ (op1 op2 op3 : Field) (s : State) (h1 : op1.toNat < Config.regCount)
      (h2 : op2.toNat < Config.regCount) (h3 : op3.toNat < Config.regCount),
    s.x[op2.toNat] ≠ 0 → ¬(s.x[op1.toNat] = 0x80000000 ∧ s.x[op2.toNat] = 0xFFFFFFFF) →
      ∃ t, exec (.div op1 op2 op3) s = .next t ∧
        t.x[op3.toNat].toInt.natAbs = s.x[op1.toNat].toInt.natAbs / s.x[op2.toNat].toInt.natAbs ∧
        (t.x[op3.toNat].toInt < 0 ↔
          ((s.x[op1.toNat].toInt < 0 ∧ 0 < s.x[op2.toNat].toInt) ∨
            (0 < s.x[op1.toNat].toInt ∧ s.x[op2.toNat].toInt < 0)) ∧
          s.x[op2.toNat].toInt.natAbs ≤ s.x[op1.toNat].toInt.natAbs)

/-- R169, the spec's decision D9 (log 7), so derived: -2^31 divided by -1 gives 0x80000000, no fault. -/
def Obligations.DivOverflowWrapsToMinimum : Prop :=
  ∀ (op1 op2 op3 : Field) (s : State) (h1 : op1.toNat < Config.regCount)
      (h2 : op2.toNat < Config.regCount) (h3 : op3.toNat < Config.regCount),
    s.x[op1.toNat] = 0x80000000 → s.x[op2.toNat] = 0xFFFFFFFF →
      ∃ t, exec (.div op1 op2 op3) s = .next t ∧ t.x[op3.toNat] = 0x80000000 ∧
        OnlyRegMayDiffer op3.toNat s t

/-- R167 (marked derived in the spec): sources are read before the destination is written. -/
def Obligations.AluAliasedOperandsUseOldValue : Prop :=
  ∀ (r : Field) (s : State) (h : r.toNat < Config.regCount),
    (∃ t, exec (.add r r r) s = .next t ∧ Wraps t.x[r.toNat] (2 * s.x[r.toNat].toNat)) ∧
    (∃ t, exec (.sub r r r) s = .next t ∧ t.x[r.toNat] = 0) ∧
    (∃ t, exec (.mul r r r) s = .next t ∧ Wraps t.x[r.toNat] (s.x[r.toNat].toNat ^ 2)) ∧
    (s.x[r.toNat] ≠ 0 → ∃ t, exec (.div r r r) s = .next t ∧ t.x[r.toNat] = 1) ∧
    (s.x[r.toNat] = 0 → exec (.div r r r) s = .fault .divisionByZero)

/-- R115: the register-index check of every instruction, in field order, on the fields of R115's list
and no others; for a word, on the digits of those fields. -/
def Obligations.RegisterIndexCheckInFieldOrder : Prop :=
  (∀ i s n, firstBadReg i.usedRegs = some n → exec i s = .fault (.registerFault n)) ∧
  (∀ i s n, exec i s = .fault (.registerFault n) → firstBadReg i.usedRegs = some n) ∧
  ∀ (w : Word) (i : Instr), decode w = .ok i →
    i.usedRegs.map (·.toNat) = (usedDigits (hexDigit w 7)).map (hexDigit w)

/-! ### Encoding -/

/-- R92 (marked derived in the spec; the layout is decision D1, log 3): `encode` is the sum of the
shifted fields and the two-sided inverse of `decode` on field tuples. -/
def Obligations.FieldTupleEncodingIsBijective : Prop :=
  (∀ f : Fields, (encodeFields f).toNat = f.opcodeIndex.toNat * 2 ^ 28 + f.op1.toNat * 2 ^ 24 +
    f.op2.toNat * 2 ^ 20 + f.op3.toNat * 2 ^ 16 + f.constant.toNat) ∧
  (∀ f : Fields, decodeFields (encodeFields f) = f) ∧
  ∀ w : Word, encodeFields (decodeFields w) = w

/-- Every instruction, with every operand at every value its fields admit, decodes from its canonical
word (R92's canonical encoding, decisions D1, D3, D7, D19: log 3). -/
def Obligations.DecodeOfEncodeIsIdentity : Prop :=
  ∀ i : Instr, decode (encode i) = .ok i

/-- A word that decodes to an instruction is its canonical word with anything in the unused bits. -/
def Obligations.DecodedWordAgreesOnUsedBits : Prop :=
  ∀ (w : Word) (i : Instr), decode w = .ok i ↔ encode i = w &&& i.usedBits

/-- R87: two words that agree on the bits the instruction of the first uses are one instruction, so a
step on either does the same, except for the word left in `pc`. -/
def Obligations.UnusedFieldsAreIgnored : Prop :=
  ∀ (w w' : Word) (i : Instr), decode w = .ok i → w &&& i.usedBits = w' &&& i.usedBits →
    decode w' = .ok i ∧
    ∀ s : State, step { s with pc := w' } = mapNext (fun t => { t with pc := w' }) (step { s with pc := w })

/-- R88, R113: exactly the words from 0xD0000000 on are no instruction; a step on one reports
InvalidOpcode with the opcode index and the host finds the state unchanged. -/
def Obligations.IllegalOpcodesFaultAtDispatch : Prop :=
  (∀ (w : Word) (n : Nat), decode w = .error (.invalidOpcode n) ↔
    0xD0000000 ≤ w.toNat ∧ n = hexDigit w 7) ∧
  ∀ s : State, 13 ≤ hexDigit s.pc 7 → hostStep s = (.fault (.invalidOpcode (hexDigit s.pc 7)), s)

/-- Words of the spec's own listings (R93, 95_test_vectors.md B1) decode to what they list. -/
def Obligations.SampleWordsDecode : Prop :=
  decode 0x7000002A = .ok (.setc 0 42) ∧ decode 0x20100000 = .ok (.set 0 1) ∧
  decode 0x30120000 = .ok (.add 0 1 2) ∧ decode 0x03400000 = .ok (.fetch 3 4) ∧
  decode 0x10100000 = .ok (.store 0 1) ∧ decode 0x12345678 = .ok (.store 2 3) ∧
  decode 0x61230000 = .ok (.div 1 2 3) ∧ decode 0x8FFFFFFF = .ok .shl ∧
  decode 0xDEADBEEF = .error (.invalidOpcode 13)

/-! ### The step -/

/-- R111: where the word in `pc` decodes to `i`, the step is `exec i`, with nothing added around it; where
it decodes to none, the step is the dispatch check's fault. The word is the one the host's interface
places there. -/
def Obligations.StepRunsDecodedInstruction : Prop :=
  (∀ (s : State) (i : Instr), decode s.pc = .ok i → step s = exec i s) ∧
  (∀ (s : State) (n : Nat), decode s.pc = .error (.invalidOpcode n) → step s = .fault (.invalidOpcode n)) ∧
  ∀ (s : State) (i : Instr) (nbits w : Nat), decodeTableWord nbits w = some i →
    step (s.withFetchWord nbits w) = exec i (s.withFetchWord nbits w)

/-- R118: a successful step is that of the instruction in `pc`, all of whose register fields are below N, and
its complete effect is the one write of that instruction's rule (`EffectOf`): STORE's four bytes at
`effectiveOffset` of its `op2` register and no other byte and no register; for every other form its
destination register and no other register, all of memory as it was. `pc`, the latches and `flags` are as
before. The places and values are those of FETCH to SETC above, with the decisions in them (logs 3, 4, 7, 8). -/
def Obligations.SuccessfulStepMakesOneWrite : Prop :=
  ∀ s t : State, step s = .next t →
    SameSpecials s t ∧ ∃ i, decode s.pc = .ok i ∧ i.WellFormed ∧ EffectOf i s t

/-- R28: no step changes `pc`, whether it completes or faults. -/
def Obligations.StepNeverChangesPc : Prop :=
  ∀ s : State, (hostStep s).2.pc = s.pc

/-- No step changes `flags` or a latch, and none reads one: with other values there the outcome is the
same, carrying those values along (R30, R31, R32, R166 each in part, so derived). -/
def Obligations.FlagsAndLatchesAreInvisible : Prop :=
  ∀ (s : State) (a d f : Word),
    step { s with memAddr := a, memData := d, flags := f } =
      mapNext (fun t => { t with memAddr := a, memData := d, flags := f }) (step s)

/-- The core reaches the memory only through FETCH and STORE (R51): with any other opcode a step does
the same whatever the memory holds and leaves that memory alone. -/
def Obligations.OnlyFetchAndStoreReachMemory : Prop :=
  ∀ (s : State) (m : Memory), hexDigit s.pc 7 ≠ 0 → hexDigit s.pc 7 ≠ 1 →
    step { s with mem := m } = mapNext (fun t => { t with mem := m }) (step s)

/-- R15: a step is ok with a new state or one of the five faults with the state unchanged; it is never
refused and there is no third outcome. -/
def Obligations.StepIsOkOrFaultNeverRefused : Prop :=
  ∀ s : State, (∃ t, step s = .next t ∧ hostStep s = (.ok, t)) ∨
    ∃ f, step s = .fault f ∧ hostStep s = (.fault f, s)

/-- The order of checks of R116 and R219 (beyond its first place the spec's decision D11, log 6, so
derived): a step reports exactly the first fault in that order, and completes where there is none. -/
def Obligations.StepFaultIsFirstInCheckOrder : Prop :=
  ∀ s : State, (∀ f, step s = .fault f ↔ expectedFault s = some f) ∧
    (SafeStep s ↔ expectedFault s = none)

/-- R218 (marked derived in the spec): which instruction can raise which fault; only opcode indices 0
to 7 can complete. -/
def Obligations.FaultsByInstructionTable : Prop :=
  (∀ i s f, exec i s = .fault f → mayRaise i f) ∧
  ∀ s t : State, step s = .next t → hexDigit s.pc 7 ≤ 7

/-- Every step keeps the invariant: MEMSIZE in its range and unchanged, nothing stored outside the
buffer, the memory in the model's canonical form (log 10). -/
def Obligations.InvariantKeptByEveryStep : Prop :=
  ∀ s t : State, s.Inv → step s = .next t → t.Inv ∧ t.mem.size = s.mem.size

/-- Every transaction and every session of the host keeps the invariant (log 10, log 12). -/
def Obligations.InvariantKeptByEverySession : Prop :=
  ∀ (ts : List Transaction) (s : State), s.Inv →
    (session ts s).2.Inv ∧ (session ts s).2.mem.size = s.mem.size

/-- The invariant holds right after reset, for every legal MEMSIZE and for the model's own (log 1). -/
def Obligations.InvariantHoldsAtReset : Prop :=
  (∀ n, Config.LegalMemSize n → (State.resetOf n).Inv) ∧ State.reset.Inv

/-- A word stepped again runs again on the new state (R123, marked derived in the spec): ADD stepped `k`
times adds `k` times the other register. -/
def Obligations.RepeatedAddStepsAccumulate : Prop :=
  ∀ (k : Nat) (s : State) (b d : Field) (hb : b.toNat < Config.regCount) (hd : d.toNat < Config.regCount),
    decode s.pc = .ok (.add d b d) → b.toNat ≠ d.toNat →
      ∃ t, core.run k s = .next t ∧
        Wraps t.x[d.toNat] (s.x[d.toNat].toNat + k * s.x[b.toNat].toNat) ∧ OnlyRegMayDiffer d.toNat s t

/-- R121: when a step faults, the state is exactly what it was. That the same fault then recurs is R222's:
the core is ready again with that state, the spec's decision D13 (log 13), so derived. -/
def Obligations.FaultedStepLeavesStateAndRecurs : Prop :=
  ∀ (s : State) (f : Fault), (hostStep s).1 = .fault f →
    (hostStep s).2 = s ∧ hostStep (hostStep s).2 = (.fault f, s)

/-! ### Reset -/

/-- R38 to R41: after reset every register and every byte is zero, whatever MEMSIZE is; the word in `pc`
is FETCH r0, r0. -/
def Obligations.ResetStateIsAllZero : Prop :=
  ∀ n : Nat, (∀ (k : Nat) (h : k < Config.regCount), (State.resetOf n).x[k] = 0) ∧
    (State.resetOf n).pc = 0 ∧ decode (State.resetOf n).pc = .ok (.fetch 0 0) ∧
    (State.resetOf n).memAddr = 0 ∧ (State.resetOf n).memData = 0 ∧ (State.resetOf n).flags = 0 ∧
    (State.resetOf n).mem.size = n ∧ ∀ a, a < n → (State.resetOf n).mem.byteAt a = 0

/-- R253 (marked derived in the spec): stepping right after reset succeeds and changes nothing, for every
legal MEMSIZE. -/
def Obligations.StepAtResetChangesNothing : Prop :=
  ∀ n, Config.LegalMemSize n → step (State.resetOf n) = .next (State.resetOf n)

/-! ### Memory -/

/-- R56: MemRead in bounds gives the little-endian value of the four bytes, out of bounds AddressFault. -/
def Obligations.MemReadGivesLittleEndianWord : Prop :=
  ∀ (m : Memory) (o : Word),
    (o.toNat + 4 ≤ m.size → ∃ v, m.readWord o = .ok v ∧ v.toNat = wordValue m o.toNat) ∧
    (m.size < o.toNat + 4 → m.readWord o = .error (.addressFault o))

/-- R57: MemWrite in bounds overwrites the four bytes and no other; out of bounds AddressFault. -/
def Obligations.MemWriteOverwritesFourBytes : Prop :=
  ∀ (m : Memory) (o v : Word),
    (o.toNat + 4 ≤ m.size → ∃ m', m.writeWord o v = .ok m' ∧ m'.size = m.size ∧
      (∀ k, k < 4 → (m'.byteAt (o.toNat + k)).toNat = byteValue v k) ∧
      ∀ a, ¬(o.toNat ≤ a ∧ a < o.toNat + 4) → m'.byteAt a = m.byteAt a) ∧
    (m.size < o.toNat + 4 → m.writeWord o v = .error (.addressFault o))

/-- R59 and R60 (marked derived in the spec): a read at the written offset gives the written word, and a
read at any overlapping offset the mixture, byte by byte. -/
def Obligations.ReadAfterWriteSeesLatestBytes : Prop :=
  ∀ (m m' : Memory) (o v o' : Word), m.writeWord o v = .ok m' →
    m'.readWord o = .ok v ∧
    (o'.toNat + 4 ≤ m.size → ∃ v', m'.readWord o' = .ok v' ∧ ∀ k, k < 4 →
      byteValue v' k =
        if o.toNat ≤ o'.toNat + k ∧ o'.toNat + k < o.toNat + 4 then byteValue v (o'.toNat + k - o.toNat)
        else (m.byteAt (o'.toNat + k)).toNat)

/-- The model's canonical form (log 10): two memories in it that have one size and read the same at every
offset below it are equal data. -/
def Obligations.EqualBytesMeanEqualMemory : Prop :=
  ∀ m m' : Memory, m.wf → m'.wf → m.size = m'.size → (∀ a, a < m.size → m.byteAt a = m'.byteAt a) → m = m'

/-! ### The host -/

/-- The register file's access contract (R22, R193): get and set below 8, RegisterFault and no change
from 8 on; a write changes that register alone. -/
def Obligations.HostRegisterAccessContract : Prop :=
  ∀ (i : Nat) (v : Word) (s : State),
    (∀ h : i < Config.regCount, transact (.getReg i) s = (.value s.x[i], s) ∧
      ∃ t, transact (.setReg i v) s = (.ok, t) ∧ transact (.getReg i) t = (.value v, t) ∧
        OnlyRegMayDiffer i s t) ∧
    (Config.regCount ≤ i → transact (.getReg i) s = (.fault (.registerFault i), s) ∧
      transact (.setReg i v) s = (.fault (.registerFault i), s))

/-- R194: named access to the four special-purpose registers never faults, any value reads back, and
nothing else changes; HostSetPC is HostSetSpecial of `program_counter`. -/
def Obligations.HostSpecialRegisterAccess : Prop :=
  (∀ (n : SpecialReg) (v : Word) (s : State), ∃ t, transact (.setSpecial n v) s = (.ok, t) ∧
    transact (.getSpecial n) t = (.value v, t) ∧
    (∀ n', n' ≠ n → hostGetSpecial n' t = hostGetSpecial n' s) ∧ t.x = s.x ∧ SameMemory s t) ∧
  (∀ (n : SpecialReg) (s : State), transact (.getSpecial n) s = (.value (hostGetSpecial n s), s)) ∧
  ∀ (w : Word) (s : State), transact (.setPC w) s = transact (.setSpecial .programCounter w) s

/-- R195: the host's word transactions are MemRead and MemWrite, and fail without a change. -/
def Obligations.HostWordAccess : Prop :=
  ∀ (o v : Word) (s : State),
    (o.toNat + 4 ≤ s.mem.size →
      (∃ r, transact (.readWord o) s = (.value r, s) ∧ r.toNat = wordValue s.mem o.toNat) ∧
      ∃ t, transact (.writeWord o v) s = (.ok, t) ∧ transact (.readWord o) t = (.value v, t) ∧
        (∀ k, k < 4 → (t.mem.byteAt (o.toNat + k)).toNat = byteValue v k) ∧ OnlyWordMayDiffer o.toNat s t) ∧
    (s.mem.size < o.toNat + 4 → transact (.readWord o) s = (.fault (.addressFault o), s) ∧
      transact (.writeWord o v) s = (.fault (.addressFault o), s))

/-- R196: a snapshot changes nothing, shows each memory byte at its offset, and is the whole state: two
states with one snapshot are equal when their memories are in canonical form. That form is the model's
choice (`Memory.wf`, log 10, DESIGN CHOICE), so derived. -/
def Obligations.SnapshotIsWholeState : Prop :=
  (∀ s : State, transact .snapshot s = (.snapshot (hostSnapshot s), s)) ∧
  (∀ (s : State) (a : Nat), (hostSnapshot s).data[a]? = if a < s.mem.size then some (s.mem.byteAt a) else none) ∧
  ∀ s t : State, s.mem.wf → t.mem.wf → hostSnapshot s = hostSnapshot t → s = t

/-- R225: a transaction other than HostStep fails exactly when it is a register transaction with an index of
8 or more (RegisterFault of it) or a word transaction out of bounds (AddressFault of it), so no other ever
fails; HostStep fails exactly when its step does (R191); and a failed transaction has no effect. -/
def Obligations.HostTransactionFaults : Prop :=
  ∀ (t : Transaction) (s : State) (f : Fault),
    ((transact t s).1 = .fault f → (transact t s).2 = s) ∧
    (t ≠ .step → ((transact t s).1 = .fault f ↔
      (∃ i, Config.regCount ≤ i ∧ f = .registerFault i ∧ (t = .getReg i ∨ ∃ v, t = .setReg i v)) ∨
      ∃ o : Word, s.mem.size < o.toNat + 4 ∧ f = .addressFault o ∧
        (t = .readWord o ∨ ∃ v, t = .writeWord o v))) ∧
    ((transact .step s).1 = .fault f ↔ step s = .fault f)

/-- A fault leaves no trace (R201, R36): a session without its faulted transactions has no fault left and
ends in the same state. -/
def Obligations.FaultedTransactionsLeaveNoTrace : Prop :=
  ∀ (ts : List Transaction) (s : State), SafeSession (withoutFaulted ts s) s ∧
    (session (withoutFaulted ts s) s).2 = (session ts s).2
end

