-- ==== Sys2Proof/Laws/Memory.lean ====
section
/-! SUPPORT. The memory's laws: a byte read after a byte write, the canonical form kept by every memory
operation, and what a word read and a word write can do. -/

namespace Sys2Proof.Machine

theorem lookupCell_filter_ne (a b : Nat) (l : List Host.Cell) :
    lookupCell a (l.filter fun c => c.1 ≠ b) = if a = b then Memory.unlisted else lookupCell a l := by
  induction l with
  | nil => simp [lookupCell]
  | cons c cs ih =>
    rw [List.filter_cons]
    by_cases hc : c.1 = b
    · simp only [hc, ne_eq, not_true_eq_false, decide_false, Bool.false_eq_true, ↓reduceIte] at ih ⊢
      rw [ih]
      split
      · rfl
      · rename_i h
        rw [lookupCell, if_neg (by rw [hc]; exact fun h' => h h'.symm)]
    · simp only [ne_eq, hc, not_false_eq_true, decide_true, ↓reduceIte, lookupCell] at ih ⊢
      rw [ih]
      by_cases hca : c.1 = a
      · rw [if_pos hca, if_pos hca, if_neg (by rw [← hca]; exact hc)]
      · rw [if_neg hca, if_neg hca]

theorem lookupCell_insertCell (a : Nat) (c : Host.Cell) (l : List Host.Cell) (h : ∀ d ∈ l, d.1 ≠ c.1) :
    lookupCell a (insertCell c l) = if c.1 = a then c.2 else lookupCell a l := by
  induction l with
  | nil => rfl
  | cons d ds ih =>
    rw [insertCell]
    split
    · rfl
    · rw [lookupCell, ih fun e he => h e (List.mem_cons_of_mem _ he), lookupCell]
      by_cases hd : d.1 = a
      · rw [if_pos hd, if_pos hd, if_neg (by rw [← hd]; exact (h d List.mem_cons_self).symm)]
      · rw [if_neg hd, if_neg hd]

/-- Reading a byte after writing one: the written byte there, the old byte everywhere else. -/
theorem Memory.byteAt_writeByte (m : Memory) (a b : Nat) (v : Byte) :
    (m.writeByte a v).byteAt b = if a = b then v else m.byteAt b := by
  simp only [Memory.writeByte, Memory.byteAt]
  split
  · rename_i hv
    rw [lookupCell_filter_ne, hv]
    simp only [eq_comm]
  · rw [lookupCell_insertCell, lookupCell_filter_ne]
    · by_cases h : a = b
      · rw [if_pos h, if_pos h]
      · rw [if_neg h, if_neg h, if_neg (Ne.symm h)]
    · intro d hd
      simpa using (List.mem_filter.mp hd).2

@[simp] theorem Memory.writeByte_size (m : Memory) (a : Nat) (v : Byte) :
    (m.writeByte a v).size = m.size := rfl

theorem mem_insertCell (c d : Host.Cell) (l : List Host.Cell) :
    d ∈ insertCell c l ↔ d = c ∨ d ∈ l := by
  induction l with
  | nil => simp [insertCell]
  | cons e es ih =>
    rw [insertCell]
    split
    · simp
    · rw [List.mem_cons, ih, List.mem_cons]
      tauto

theorem pairwise_insertCell (c : Host.Cell) (l : List Host.Cell) (h : ∀ d ∈ l, d.1 ≠ c.1)
    (hl : l.Pairwise fun d e => d.1 < e.1) : (insertCell c l).Pairwise fun d e => d.1 < e.1 := by
  induction l with
  | nil => simp [insertCell]
  | cons d ds ih =>
    obtain ⟨hd, hds⟩ := List.pairwise_cons.mp hl
    rw [insertCell]
    split
    · rename_i hlt
      refine List.pairwise_cons.mpr ⟨fun e he => ?_, hl⟩
      rcases List.mem_cons.mp he with rfl | he
      · exact hlt
      · exact hlt.trans (hd e he)
    · rename_i hlt
      refine List.pairwise_cons.mpr ⟨fun e he => ?_, ih (fun e he => h e (List.mem_cons_of_mem _ he)) hds⟩
      rcases (mem_insertCell c e ds).mp he with rfl | he
      · exact lt_of_le_of_ne (not_lt.mp hlt) (h d List.mem_cons_self)
      · exact hd e he

/-- Writing a byte inside the buffer keeps the canonical form. -/
theorem Memory.wf_writeByte (m : Memory) (a : Nat) (v : Byte) (ha : a < m.size) (hm : m.wf) :
    (m.writeByte a v).wf := by
  obtain ⟨hp, hc⟩ := hm
  have hp' := hp.filter fun c => c.1 ≠ a
  have hc' : ∀ c ∈ m.cells.filter (fun c => c.1 ≠ a), c.1 < m.size ∧ c.2 ≠ Memory.unlisted :=
    fun c h => hc c (List.mem_filter.mp h).1
  unfold Memory.writeByte
  by_cases hv : v = Memory.unlisted
  · simp only [hv, if_true]
    exact ⟨hp', hc'⟩
  · simp only [hv, if_false]
    refine ⟨pairwise_insertCell _ _ (fun d hd => by simpa using (List.mem_filter.mp hd).2) hp', ?_⟩
    intro c h
    rcases (mem_insertCell _ _ _).mp h with rfl | h
    · exact ⟨ha, hv⟩
    · exact hc' c h

/-- Everything a word read can do (R56). -/
theorem Memory.readWord_eq (m : Memory) (o : Word) :
    (m.InBounds o ∧ m.readWord o = .ok (m.byteAt (o.toNat + 3) ++ m.byteAt (o.toNat + 2) ++
      m.byteAt (o.toNat + 1) ++ m.byteAt o.toNat)) ∨
    (¬ m.InBounds o ∧ m.readWord o = .error (.addressFault o)) := by
  by_cases h : m.InBounds o
  · exact .inl ⟨h, if_pos h⟩
  · exact .inr ⟨h, if_neg h⟩

/-- Everything a word write can do (R57): out of bounds it faults; in bounds it answers a memory of the
same size in which the bytes from `o` to `o + 3` are those of the word and no other byte differs. -/
theorem Memory.writeWord_spec (m : Memory) (o v : Word) :
    (m.InBounds o ∧ ∃ m', m.writeWord o v = .ok m' ∧ m'.size = m.size ∧ (m.wf → m'.wf) ∧
      ∀ a, m'.byteAt a =
        if o.toNat ≤ a ∧ a < o.toNat + 4 then byteOf v (a - o.toNat) else m.byteAt a) ∨
    (¬ m.InBounds o ∧ m.writeWord o v = .error (.addressFault o)) := by
  by_cases h : m.InBounds o
  · refine .inl ⟨h, _, if_pos h, rfl, fun hm => ?_, fun a => ?_⟩
    · repeat' first
        | apply Memory.wf_writeByte
        | exact hm
        | (show _ < m.size; unfold Memory.InBounds at h; omega)
    · simp only [Memory.byteAt_writeByte]
      split_ifs <;> first
        | omega
        | rfl
        | (congr 1; omega)
  · exact .inr ⟨h, if_neg h⟩

/-- A word write keeps the canonical form and the size. -/
theorem Memory.wf_writeWord {m m' : Memory} {o v : Word} (h : m.writeWord o v = .ok m') (hm : m.wf) :
    m'.wf ∧ m'.size = m.size := by
  rcases m.writeWord_spec o v with ⟨-, m'', h', hs, hw, -⟩ | ⟨-, h'⟩ <;> rw [h'] at h <;> cases h
  exact ⟨hw hm, hs⟩

end Sys2Proof.Machine
end

