-- ==== Sys2Proof/Laws/State.lean ====
section
/-! SUPPORT. What each update does to each field of the state. -/

namespace Sys2Proof.Machine

section WriteReg
variable (s : State) (r : Reg) (v : Word)

@[simp] theorem State.writeReg_x : (s.writeReg r v).x = s.x.set r v := rfl
@[simp] theorem State.writeReg_pc : (s.writeReg r v).pc = s.pc := rfl
@[simp] theorem State.writeReg_memAddr : (s.writeReg r v).memAddr = s.memAddr := rfl
@[simp] theorem State.writeReg_memData : (s.writeReg r v).memData = s.memData := rfl
@[simp] theorem State.writeReg_flags : (s.writeReg r v).flags = s.flags := rfl
@[simp] theorem State.writeReg_mem : (s.writeReg r v).mem = s.mem := rfl

/-- R22: a register reads the value last written to it, and a write changes no other register. -/
theorem State.readReg_writeReg (r' : Reg) :
    (s.writeReg r v).readReg r' = if r = r' then v else s.readReg r' := by
  simp only [State.readReg, State.writeReg, Fin.getElem_fin, Vector.getElem_set, Fin.ext_iff]

end WriteReg

section FetchWord
variable (s : State) (nbits w : Nat)

@[simp] theorem State.withFetchWord_x : (s.withFetchWord nbits w).x = s.x := rfl
@[simp] theorem State.withFetchWord_pc : (s.withFetchWord nbits w).pc = tableWord nbits w := rfl
@[simp] theorem State.withFetchWord_memAddr : (s.withFetchWord nbits w).memAddr = s.memAddr := rfl
@[simp] theorem State.withFetchWord_memData : (s.withFetchWord nbits w).memData = s.memData := rfl
@[simp] theorem State.withFetchWord_flags : (s.withFetchWord nbits w).flags = s.flags := rfl
@[simp] theorem State.withFetchWord_mem : (s.withFetchWord nbits w).mem = s.mem := rfl

end FetchWord

section SetPC
variable (w : Word) (s : State)

@[simp] theorem hostSetPC_x : (hostSetPC w s).x = s.x := rfl
@[simp] theorem hostSetPC_pc : (hostSetPC w s).pc = w := rfl
@[simp] theorem hostSetPC_memAddr : (hostSetPC w s).memAddr = s.memAddr := rfl
@[simp] theorem hostSetPC_memData : (hostSetPC w s).memData = s.memData := rfl
@[simp] theorem hostSetPC_flags : (hostSetPC w s).flags = s.flags := rfl
@[simp] theorem hostSetPC_mem : (hostSetPC w s).mem = s.mem := rfl

end SetPC

section Reset
variable (n : Nat)

@[simp] theorem State.resetOf_x : (State.resetOf n).x = Vector.replicate Config.regCount 0 := rfl
@[simp] theorem State.resetOf_pc : (State.resetOf n).pc = 0 := rfl
@[simp] theorem State.resetOf_memAddr : (State.resetOf n).memAddr = 0 := rfl
@[simp] theorem State.resetOf_memData : (State.resetOf n).memData = 0 := rfl
@[simp] theorem State.resetOf_flags : (State.resetOf n).flags = 0 := rfl
@[simp] theorem State.resetOf_mem : (State.resetOf n).mem = ⟨n, []⟩ := rfl

end Reset

section SetSpecial
variable (n : SpecialReg) (v : Word) (s : State)

@[simp] theorem hostSetSpecial_x : (hostSetSpecial n v s).x = s.x := by cases n <;> rfl
@[simp] theorem hostSetSpecial_mem : (hostSetSpecial n v s).mem = s.mem := by cases n <;> rfl

end SetSpecial

end Sys2Proof.Machine
end

