-- ==== Sys2Proof/Laws/Ops.lean ====
section
/-! SUPPORT. What each shared operation can do: operand resolution, the end of a handler, the results. -/

namespace Sys2Proof.Machine

@[simp] theorem finish_ok (s : State) : finish (.ok s) = .next s := rfl
@[simp] theorem finish_error (f : Fault) : finish (.error f) = .fault f := rfl

@[simp] theorem mapNext_next (g : State → State) (s : State) : mapNext g (.next s) = .next (g s) := rfl
@[simp] theorem mapNext_fault (g : State → State) (f : Fault) : mapNext g (.fault f) = .fault f := rfl
@[simp] theorem mapNext_refused (g : State → State) (r : Refusal) :
    mapNext g (.refused r) = .refused r := rfl

/-- If a handler ends in a next state, its result was that state. -/
theorem finish_eq_next {r : Except Fault State} {t : State} : finish r = .next t ↔ r = .ok t := by
  cases r <;> simp [finish, raise]

/-- If a handler ends in a fault, its result was that fault. -/
theorem finish_eq_fault {r : Except Fault State} {f : Fault} : finish r = .fault f ↔ r = .error f := by
  cases r <;> simp [finish, raise]

/-- A handler never ends in a refusal. -/
theorem finish_ne_refused (r : Except Fault State) (q : Refusal) : finish r ≠ .refused q := by
  cases r <;> simp [finish, raise]

theorem resolveReg_of_lt {n : Nat} (h : n < Config.regCount) : resolveReg n = .ok ⟨n, h⟩ := dif_pos h

theorem resolveReg_of_ge {n : Nat} (h : Config.regCount ≤ n) : resolveReg n = .error (.registerFault n) :=
  dif_neg (not_lt.mpr h)

theorem resolveTwo_of_lt {a b : Field} (ha : a.toNat < Config.regCount) (hb : b.toNat < Config.regCount) :
    resolveTwo a b = .ok (⟨a.toNat, ha⟩, ⟨b.toNat, hb⟩) := by
  simp only [resolveTwo, resolveReg_of_lt ha, resolveReg_of_lt hb]
  rfl

theorem resolveThree_of_lt {a b d : Field} (ha : a.toNat < Config.regCount)
    (hb : b.toNat < Config.regCount) (hd : d.toNat < Config.regCount) :
    resolveThree a b d = .ok (⟨a.toNat, ha⟩, ⟨b.toNat, hb⟩, ⟨d.toNat, hd⟩) := by
  simp only [resolveThree, resolveReg_of_lt ha, resolveReg_of_lt hb, resolveReg_of_lt hd]
  rfl

/-- `firstBadReg` looks at one field after the other. -/
theorem firstBadReg_cons (f : Field) (fs : List Field) :
    firstBadReg (f :: fs) = if Config.regCount ≤ f.toNat then some f.toNat else firstBadReg fs := by
  rw [firstBadReg, firstBadReg, List.find?_cons]
  split
  · rename_i h; rw [if_pos (of_decide_eq_true h)]; rfl
  · rename_i h; rw [if_neg (of_decide_eq_false h)]

@[simp] theorem firstBadReg_nil : firstBadReg [] = none := rfl

/-- Everything resolving two register operands can do (R115): both are below N, or the fault names the
first that is not. -/
theorem resolveTwo_spec (a b : Field) :
    (∃ (ha : a.toNat < Config.regCount) (hb : b.toNat < Config.regCount), firstBadReg [a, b] = none ∧
      resolveTwo a b = .ok (⟨a.toNat, ha⟩, ⟨b.toNat, hb⟩)) ∨
    ∃ n, firstBadReg [a, b] = some n ∧ resolveTwo a b = .error (.registerFault n) := by
  simp only [firstBadReg_cons, firstBadReg_nil]
  by_cases ha : a.toNat < Config.regCount
  · by_cases hb : b.toNat < Config.regCount
    · exact .inl ⟨ha, hb, by rw [if_neg (by omega), if_neg (by omega)], resolveTwo_of_lt ha hb⟩
    · refine .inr ⟨b.toNat, by rw [if_neg (by omega), if_pos (by omega)], ?_⟩
      simp only [resolveTwo, resolveReg_of_lt ha, resolveReg_of_ge (not_lt.mp hb)]
      rfl
  · refine .inr ⟨a.toNat, by rw [if_pos (by omega)], ?_⟩
    simp only [resolveTwo, resolveReg_of_ge (not_lt.mp ha)]
    rfl

/-- Everything resolving three register operands can do (R115). -/
theorem resolveThree_spec (a b d : Field) :
    (∃ (ha : a.toNat < Config.regCount) (hb : b.toNat < Config.regCount) (hd : d.toNat < Config.regCount),
      firstBadReg [a, b, d] = none ∧
      resolveThree a b d = .ok (⟨a.toNat, ha⟩, ⟨b.toNat, hb⟩, ⟨d.toNat, hd⟩)) ∨
    ∃ n, firstBadReg [a, b, d] = some n ∧ resolveThree a b d = .error (.registerFault n) := by
  simp only [firstBadReg_cons, firstBadReg_nil]
  by_cases ha : a.toNat < Config.regCount
  · by_cases hb : b.toNat < Config.regCount
    · by_cases hd : d.toNat < Config.regCount
      · exact .inl ⟨ha, hb, hd, by rw [if_neg (by omega), if_neg (by omega), if_neg (by omega)],
          resolveThree_of_lt ha hb hd⟩
      · refine .inr ⟨d.toNat, by rw [if_neg (by omega), if_neg (by omega), if_pos (by omega)], ?_⟩
        simp only [resolveThree, resolveReg_of_lt ha, resolveReg_of_lt hb, resolveReg_of_ge (not_lt.mp hd)]
        rfl
    · refine .inr ⟨b.toNat, by rw [if_neg (by omega), if_pos (by omega)], ?_⟩
      simp only [resolveThree, resolveReg_of_lt ha, resolveReg_of_ge (not_lt.mp hb)]
      rfl
  · refine .inr ⟨a.toNat, by rw [if_pos (by omega)], ?_⟩
    simp only [resolveThree, resolveReg_of_ge (not_lt.mp ha)]
    rfl

/-- R13: `wrap32 z` is the pattern of `z` modulo 2^32. -/
theorem wraps_wrap32 (z : Int) : Wraps (wrap32 z) z := by
  unfold Wraps wrap32
  rw [BitVec.toNat_ofInt]
  omega

/-- A register write is a change of that register alone. -/
theorem onlyRegMayDiffer_writeReg (s : State) (d : Nat) (hd : d < Config.regCount) (v : Word) :
    OnlyRegMayDiffer d s (s.writeReg ⟨d, hd⟩ v) := by
  refine ⟨fun k h hk => ?_, ⟨rfl, rfl, rfl, rfl⟩, rfl, fun _ => rfl⟩
  rw [State.writeReg_x, Vector.getElem_set, if_neg (Ne.symm hk)]

/-- The register written reads the value written. -/
@[simp] theorem getElem_writeReg_self (s : State) (d : Nat) (hd : d < Config.regCount) (v : Word) :
    (s.writeReg ⟨d, hd⟩ v).x[d] = v := by
  rw [State.writeReg_x, Vector.getElem_set_self]

/-- Everything DIV's arithmetic can do (R164). -/
theorem divResult_eq (a b : Word) :
    (b.toInt ≠ 0 ∧ divResult a b = .ok (wrap32 (Int.tdiv a.toInt b.toInt))) ∨
    (b.toInt = 0 ∧ divResult a b = .error .divisionByZero) := by
  by_cases h : b.toInt = 0
  · exact .inr ⟨h, if_pos h⟩
  · exact .inl ⟨h, if_neg h⟩

/-- The common frame of ADD, SUB, MUL and DIV (R160, R168): all it can do. -/
theorem execAlu_spec (result : Word → Word → Except Fault Word) (a b d : Field) (s : State) :
    (∃ (ha : a.toNat < Config.regCount) (hb : b.toNat < Config.regCount) (hd : d.toNat < Config.regCount),
      firstBadReg [a, b, d] = none ∧
      ((∃ v, result s.x[a.toNat] s.x[b.toNat] = .ok v ∧
        execAlu result a b d s = .next (s.writeReg ⟨d.toNat, hd⟩ v)) ∨
      ∃ f, result s.x[a.toNat] s.x[b.toNat] = .error f ∧ execAlu result a b d s = .fault f)) ∨
    ∃ n, firstBadReg [a, b, d] = some n ∧ execAlu result a b d s = .fault (.registerFault n) := by
  rcases resolveThree_spec a b d with ⟨ha, hb, hd, hn, h⟩ | ⟨n, hn, h⟩
  · refine .inl ⟨ha, hb, hd, hn, ?_⟩
    cases hr : result s.x[a.toNat] s.x[b.toNat] with
    | ok v =>
      refine .inl ⟨v, rfl, ?_⟩
      have : result (s.readReg ⟨a.toNat, ha⟩) (s.readReg ⟨b.toNat, hb⟩) = .ok v := hr
      simp only [execAlu, h, bind, Except.bind, this, pure, Except.pure, finish_ok]
    | error f =>
      refine .inr ⟨f, rfl, ?_⟩
      have : result (s.readReg ⟨a.toNat, ha⟩) (s.readReg ⟨b.toNat, hb⟩) = .error f := hr
      simp only [execAlu, h, bind, Except.bind, this, finish_error]
  · refine .inr ⟨n, hn, ?_⟩
    simp only [execAlu, h, bind, Except.bind, finish_error]

end Sys2Proof.Machine
end

