-- ==== Sys2Proof/Laws/PerInstr.lean ====
section
/-! SUPPORT. Facts about every instruction as syntax, one lemma per constructor. Family
`EncodedOpcode`: an instruction's canonical word holds its dispatch-table position in bits 31:28
(30_encoding.md R85). -/

namespace Sys2Proof.Laws.EncodedOpcode

/-- The dispatch-table row at the opcode digit of `i`'s canonical word gives `i` back its constructor. -/
def Statement (i : Instr) : Prop :=
  (decodeFields (encode i)).opcodeIndex = i.fields.opcodeIndex ∧
    (dispatchTable[i.fields.opcodeIndex.toNat]?).map (fun row => row i.fields) = some i

/-- The opcode field of an encoded field tuple is the tuple's. -/
theorem opcodeIndex_encodeFields (f : Fields) : (decodeFields (encodeFields f)).opcodeIndex = f.opcodeIndex := by
  ext k hk
  simp only [decodeFields, encodeFields, BitVec.getElem_extractLsb', BitVec.getLsbD_append]
  have : ¬ 28 + k < 16 := by omega
  have h2 : ¬ 28 + k - 16 < 4 := by omega
  have h3 : ¬ 28 + k - 16 - 4 < 4 := by omega
  have h4 : ¬ 28 + k - 16 - 4 - 4 < 4 := by omega
  have h5 : 28 + k - 16 - 4 - 4 - 4 = k := by omega
  simp only [this, h2, h3, h4, h5, if_false]
  simp [BitVec.getLsbD_eq_getElem hk]

theorem fetch (op1 op2 : Field) : Statement (.fetch op1 op2) := ⟨opcodeIndex_encodeFields _, rfl⟩
theorem store (op1 op2 : Field) : Statement (.store op1 op2) := ⟨opcodeIndex_encodeFields _, rfl⟩
theorem set (op1 op2 : Field) : Statement (.set op1 op2) := ⟨opcodeIndex_encodeFields _, rfl⟩
theorem add (op1 op2 op3 : Field) : Statement (.add op1 op2 op3) := ⟨opcodeIndex_encodeFields _, rfl⟩
theorem sub (op1 op2 op3 : Field) : Statement (.sub op1 op2 op3) := ⟨opcodeIndex_encodeFields _, rfl⟩
theorem mul (op1 op2 op3 : Field) : Statement (.mul op1 op2 op3) := ⟨opcodeIndex_encodeFields _, rfl⟩
theorem div (op1 op2 op3 : Field) : Statement (.div op1 op2 op3) := ⟨opcodeIndex_encodeFields _, rfl⟩
theorem setc (op1 : Field) (constant : Const) : Statement (.setc op1 constant) :=
  ⟨opcodeIndex_encodeFields _, rfl⟩
theorem shl : Statement .shl := ⟨opcodeIndex_encodeFields _, rfl⟩
theorem shr : Statement .shr := ⟨opcodeIndex_encodeFields _, rfl⟩
theorem and : Statement .and := ⟨opcodeIndex_encodeFields _, rfl⟩
theorem or : Statement .or := ⟨opcodeIndex_encodeFields _, rfl⟩
theorem xor : Statement .xor := ⟨opcodeIndex_encodeFields _, rfl⟩

end Sys2Proof.Laws.EncodedOpcode
end

