-- ==== Sys2Proof/Tests/Slice0.lean ====
section
/-! SUPPORT. Tests. Expected results are the vectors of 95_test_vectors.md, named by their part (A, B), or
words written out from 30_encoding.md R81, R85, R86. Then one witness for each statement that has
hypotheses. -/

namespace Sys2Proof.Tests
open Sys2Proof Sys2Proof.Machine

/-! ### WellFormed: one ill-formed term for each field of each shape -/

theorem test_illFormed_op1 : ¬(Instr.fetch 8 0).WellFormed ∧ ¬(Instr.setc 15 0).WellFormed := by decide
theorem test_illFormed_op2 : ¬(Instr.store 0 8).WellFormed ∧ ¬(Instr.set 7 9).WellFormed := by decide
theorem test_illFormed_alu : ¬(Instr.add 8 0 0).WellFormed ∧ ¬(Instr.sub 0 8 0).WellFormed ∧
    ¬(Instr.mul 0 0 8).WellFormed ∧ ¬(Instr.div 7 7 15).WellFormed := by decide
theorem test_wellFormed : (Instr.add 7 7 7).WellFormed ∧ Instr.shl.WellFormed := by decide

/-! ### Decoding: for every constructor a word written out bit by bit -/

theorem test_decode_fetch : decode 0b00000011010000000000000000000000 = .ok (.fetch 3 4) := by decide
theorem test_decode_store : decode 0b00010010001101000101011001111000 = .ok (.store 2 3) := by decide
theorem test_decode_set : decode 0b00100000000100000000000000000000 = .ok (.set 0 1) := by decide
theorem test_decode_add : decode 0b00110000000100100000000000000000 = .ok (.add 0 1 2) := by decide
theorem test_decode_sub : decode 0b01000001001000110000000000000000 = .ok (.sub 1 2 3) := by decide
theorem test_decode_mul : decode 0b01010001001000110000000000000000 = .ok (.mul 1 2 3) := by decide
theorem test_decode_div : decode 0b01100111100010011010101111001101 = .ok (.div 7 8 9) := by decide
theorem test_decode_setc : decode 0b01110000111111110000000000101010 = .ok (.setc 0 42) := by decide
theorem test_decode_shl : decode 0b10001111111111111111111111111111 = .ok .shl := by decide
theorem test_decode_shr : decode 0b10010000000000000000000000000000 = .ok .shr := by decide
theorem test_decode_and : decode 0b10101000100110100000000000000000 = .ok .and := by decide
theorem test_decode_or : decode 0b10110000000000000000000000000000 = .ok .or := by decide
theorem test_decode_xor : decode 0b11001111111111111111111111111111 = .ok .xor := by decide
theorem test_decode_invalid : decode 0b11010000000000000000000000000000 = .error (.invalidOpcode 13) ∧
    decode 0b11111111111111111111111111111111 = .error (.invalidOpcode 15) := by decide

theorem test_encode_canonical : encode (.fetch 3 4) = 0x03400000 ∧ encode (.store 0 1) = 0x10100000 ∧
    encode (.add 0 1 2) = 0x30120000 ∧ encode (.setc 0 42) = 0x7000002A ∧ encode .or = 0xB0000000 := by
  decide

theorem test_decodeTableWord : decodeTableWord 32 0x61230000 = some (.div 1 2 3) ∧
    decodeTableWord 32 0xE0000000 = none := by decide

/-! ### One step -/

/-- Registers `x`, word `pc`, MEMSIZE 256 and memory bytes `cells`. -/
def small (x : Vector Word 8) (pc : Word) (cells : List Host.Cell := []) : State :=
  ⟨x, pc, 0, 0, 0, ⟨256, cells⟩⟩

/-- What a step reports, and register `r` after it. -/
def stepReg (s : State) (r : Reg) : Reply × Word := ((hostStep s).1, (hostStep s).2.x[r])

theorem test_fetch_word :  -- B3, first row
    stepReg (small #v[0, 0, 0, 16, 0, 0, 0, 0] 0x03400000 [(16, 0xEF), (17, 0xBE), (18, 0xAD), (19, 0xDE)]) 4 =
      (.ok, 0xDEADBEEF) := by decide
theorem test_fetch_edge :  -- B3: the last legal offset; one more faults
    stepReg (small #v[252, 0, 0, 0, 0, 0, 0, 0] 0x00100000 [(252, 1), (255, 0x80)]) 1 = (.ok, 0x80000001) ∧
    (hostStep (small #v[253, 0, 0, 0, 0, 0, 0, 0] 0x00100000)).1 = .fault (.addressFault 253) := by decide
theorem test_store_misaligned :  -- B4, third row
    (hostStep (small #v[0, 0x11223344, 5, 0, 0, 0, 0, 0] 0x11200000)).2.mem.cells =
      [(5, 0x44), (6, 0x33), (7, 0x22), (8, 0x11)] := by decide
theorem test_store_wraps_nowhere :  -- B4: no wrap at 2^32, no byte written
    hostStep (small #v[0, 1, 0xFFFFFFFF, 0, 0, 0, 0, 0] 0x11200000) =
      (.fault (.addressFault 0xFFFFFFFF), small #v[0, 1, 0xFFFFFFFF, 0, 0, 0, 0, 0] 0x11200000) := by decide
theorem test_set_all_bits :  -- B5
    stepReg (small #v[0, 0, 0, 0, 0, 0, 0, 0xFFFFFFFF] 0x27000000) 0 = (.ok, 0xFFFFFFFF) := by decide
theorem test_setc_zero_extends :  -- B5
    stepReg (small #v[0, 0, 0, 0, 0, 0, 0, 0xFFFFFFFF] 0x7700FFFF) 7 = (.ok, 0x0000FFFF) := by decide
theorem test_setc_bad_destination :  -- B2
    (hostStep (small #v[0, 5, 0, 0, 0, 0, 0, 0] 0x7800002A)).1 = .fault (.registerFault 8) := by decide
theorem test_add_wraps :  -- A3, and B6's aliased row
    stepReg (small #v[0, 0xFFFFFFFF, 1, 9, 0, 0, 0, 0] 0x31230000) 3 = (.ok, 0) ∧
    stepReg (small #v[0, 0x80000001, 0, 0, 0, 0, 0, 0] 0x31110000) 1 = (.ok, 2) := by decide
theorem test_sub_order :  -- B7
    stepReg (small #v[0, 7, 9, 0, 0, 0, 0, 0] 0x41230000) 3 = (.ok, 0xFFFFFFFE) := by decide
theorem test_mul_low_half :  -- B8
    stepReg (small #v[0, 12345, 6789, 0, 0, 0, 0, 0] 0x51230000) 3 = (.ok, 0x04FED79D) ∧
    stepReg (small #v[0, 0xFFFFFFFE, 3, 0, 0, 0, 0, 0] 0x51230000) 3 = (.ok, 0xFFFFFFFA) := by decide
theorem test_div_truncates :  -- A6, B9: not floor, not unsigned; the overflow of D9
    stepReg (small #v[0, 0xFFFFFFF9, 2, 0, 0, 0, 0, 0] 0x61230000) 3 = (.ok, 0xFFFFFFFD) ∧
    stepReg (small #v[0, 0xFFFFFFFF, 2, 9, 0, 0, 0, 0] 0x61230000) 3 = (.ok, 0) ∧
    stepReg (small #v[0, 0x80000000, 0xFFFFFFFF, 0, 0, 0, 0, 0] 0x61230000) 3 = (.ok, 0x80000000) := by decide
theorem test_div_faults :  -- A4, B2: RegisterFault before DivisionByZero
    stepReg (small #v[0, 7, 0, 9, 0, 0, 0, 0] 0x61230000) 3 = (.fault .divisionByZero, 9) ∧
    (hostStep (small #v[0, 5, 0, 0, 0, 0, 0, 0] 0x61280000)).1 = .fault (.registerFault 8) := by decide
theorem test_unimplemented :  -- B10
    [0x81230000, 0x90000000, 0xA89A0000, 0xB0000000, 0xCFFFFFFF].map
      (fun w => (hostStep (small #v[0, 1, 2, 3, 4, 5, 6, 7] w)).1) =
      [.fault (.notImplemented 8), .fault (.notImplemented 9), .fault (.notImplemented 10),
        .fault (.notImplemented 11), .fault (.notImplemented 12)] := by decide
theorem test_invalid_first :  -- B2: InvalidOpcode before any RegisterFault
    (hostStep (small #v[0, 5, 0, 0, 0, 0, 0, 0] 0xDFFFFFFF)).1 = .fault (.invalidOpcode 13) := by decide
theorem test_step_at_reset : hostStep State.reset = (.ok, State.reset) := by decide  -- B12
theorem test_host_registers :  -- B11
    (transact (.setReg 8 1) State.reset).1 = .fault (.registerFault 8) ∧
    (transact (.readWord 255) State.reset).1 = .fault (.addressFault 255) := by decide
theorem test_reset_memory_wf : State.reset.mem.wf := by decide

/-! ### Witnesses: states and operands that meet each statement's hypotheses, at the edges of its clauses -/

/-- ADD r0, r1, r0 in `pc`; register 3 holds the last legal offset, register 4 the first illegal one,
registers 5 and 6 the overflowing division. -/
def w : State := small #v[1, 3, 0, 252, 253, 0x80000000, 0xFFFFFFFF, 4] 0x30100000 [(8, 0xEF), (255, 1)]

theorem witness_FetchLoadsWordAtRegisterOffset : hexDigit 0x03400000 7 = 0 ∧
    w.x[(3 : Field).toNat].toNat + 4 ≤ w.mem.size ∧ w.mem.size < w.x[(4 : Field).toNat].toNat + 4 ∧
    firstBadReg [8, 15] = some 8 ∧ firstBadReg [7, 15] = some 15 := by decide
theorem witness_StoreWritesFourBytesAtRegisterOffset : hexDigit 0x1FFFFFFF 7 = 1 ∧
    effectiveOffset w ⟨(3 : Field).toNat, by decide⟩ = 252 ∧ (252 : Word).toNat + 4 ≤ w.mem.size ∧
    effectiveOffset w ⟨(4 : Field).toNat, by decide⟩ = 253 ∧ w.mem.size < (253 : Word).toNat + 4 := by decide
theorem witness_SetCopiesRegister : hexDigit 0x20100000 7 = 2 ∧ (0 : Field).toNat < Config.regCount ∧
    (7 : Field).toNat < Config.regCount ∧ firstBadReg [0, 8] = some 8 := by decide
theorem witness_AddWritesWrappedSum : hexDigit 0x30120000 7 = 3 ∧ (7 : Field).toNat < Config.regCount ∧
    firstBadReg [0, 1, 8] = some 8 := by decide
theorem witness_SubWritesWrappedDifference : hexDigit 0x40120000 7 = 4 ∧ (7 : Field).toNat < Config.regCount ∧
    firstBadReg [0, 9, 8] = some 9 := by decide
theorem witness_MulWritesLowProduct : hexDigit 0x50120000 7 = 5 ∧ (7 : Field).toNat < Config.regCount ∧
    firstBadReg [10, 9, 8] = some 10 := by decide
theorem witness_DivWritesTruncatedSignedQuotient : hexDigit 0x61230000 7 = 6 ∧
    w.x[(6 : Field).toNat] ≠ 0 ∧ w.x[(2 : Field).toNat] = 0 ∧ firstBadReg [1, 8, 9] = some 8 := by decide
theorem witness_SetcLoadsZeroExtendedConstant : hexDigit 0x7000002A 7 = 7 ∧ (7 : Field).toNat < Config.regCount ∧
    firstBadReg [8] = some 8 := by decide
theorem witness_UnimplementedSlotsAlwaysFault :
    [0x8FFFFFFF, 0x90000000, 0xA0000000, 0xB0000000, 0xCFFFFFFF].map (hexDigit · 7) = [8, 9, 10, 11, 12] := by
  decide
theorem witness_AddSubMulAgreeSignedAndUnsigned : (0 : Field).toNat < Config.regCount ∧
    (7 : Field).toNat < Config.regCount := by decide
theorem witness_DivQuotientMagnitudeAndSign : w.x[(6 : Field).toNat] ≠ 0 ∧
    ¬(w.x[(3 : Field).toNat] = 0x80000000 ∧ w.x[(6 : Field).toNat] = 0xFFFFFFFF) := by decide
theorem witness_DivOverflowWrapsToMinimum : w.x[(5 : Field).toNat] = 0x80000000 ∧
    w.x[(6 : Field).toNat] = 0xFFFFFFFF := by decide
theorem witness_AluAliasedOperandsUseOldValue : w.x[(7 : Field).toNat] ≠ 0 ∧ w.x[(2 : Field).toNat] = 0 := by
  decide
theorem witness_RegisterIndexCheckInFieldOrder : firstBadReg (Instr.div 1 8 9).usedRegs = some 8 ∧
    (hostStep { w with pc := 0x61890000 }).1 = .fault (.registerFault 8) ∧
    decode 0x61890000 = .ok (.div 1 8 9) := by decide
theorem witness_UnusedFieldsAreIgnored : decode 0x7000002A = .ok (.setc 0 42) ∧
    (0x7000002A : Word) &&& (Instr.setc 0 42).usedBits = 0x70FF002A &&& (Instr.setc 0 42).usedBits := by decide
theorem witness_IllegalOpcodesFaultAtDispatch : hexDigit 0xD0000000 7 = 13 ∧ hexDigit 0xFFFFFFFF 7 = 15 := by
  decide
theorem witness_StepRunsDecodedInstruction : decode w.pc = .ok (.add 0 1 0) ∧
    decode (0xE0000000 : Word) = .error (.invalidOpcode 14) ∧
    decodeTableWord 32 0x30100000 = some (.add 0 1 0) := by decide
theorem witness_SuccessfulStepMakesOneWrite :  -- one successful step of each form; FETCH, STORE at the last offset
    (∃ t, step { w with pc := 0x03700000 } = .next t) ∧ (∃ t, step { w with pc := 0x17300000 } = .next t) ∧
    (∃ t, step { w with pc := 0x27000000 } = .next t) ∧ (∃ t, step w = .next t) ∧
    (∃ t, step { w with pc := 0x40170000 } = .next t) ∧ (∃ t, step { w with pc := 0x51170000 } = .next t) ∧
    (∃ t, step { w with pc := 0x65670000 } = .next t) ∧ ∃ t, step { w with pc := 0x7700FFFF } = .next t :=
  ⟨⟨_, rfl⟩, ⟨_, rfl⟩, ⟨_, rfl⟩, ⟨_, rfl⟩, ⟨_, rfl⟩, ⟨_, rfl⟩, ⟨_, rfl⟩, _, rfl⟩
theorem witness_OnlyFetchAndStoreReachMemory : hexDigit w.pc 7 ≠ 0 ∧ hexDigit w.pc 7 ≠ 1 := by decide
theorem witness_FaultsByInstructionTable : exec .shl w = .fault (.notImplemented 8) ∧
    ∃ t, step w = .next t := ⟨rfl, w.writeReg 0 4, by rfl⟩
theorem witness_InvariantKeptByEveryStep : w.Inv ∧ ∃ t, step w = .next t :=
  ⟨by decide, w.writeReg 0 4, by rfl⟩
theorem witness_InvariantKeptByEverySession : w.Inv ∧ (State.resetOf 4).Inv := by decide
theorem witness_LegalMemSize : Config.LegalMemSize 4 ∧ Config.LegalMemSize 256 ∧ Config.LegalMemSize (2 ^ 32) := by
  decide
theorem witness_RepeatedAddStepsAccumulate : decode w.pc = .ok (.add 0 1 0) ∧
    (1 : Field).toNat < Config.regCount ∧ (1 : Field).toNat ≠ (0 : Field).toNat := by decide
theorem witness_FaultedStepLeavesStateAndRecurs :
    (hostStep { w with pc := 0x80000000 }).1 = .fault (.notImplemented 8) := by decide
theorem witness_MemReadGivesLittleEndianWord : (252 : Word).toNat + 4 ≤ w.mem.size ∧
    w.mem.size < (253 : Word).toNat + 4 := by decide
theorem witness_MemWriteOverwritesFourBytes : (0 : Word).toNat + 4 ≤ w.mem.size ∧
    w.mem.size < (0xFFFFFFFF : Word).toNat + 4 := by decide
theorem witness_ReadAfterWriteSeesLatestBytes : ∃ m', w.mem.writeWord 252 0x11223344 = .ok m' ∧
    (250 : Word).toNat + 4 ≤ w.mem.size := ⟨_, rfl, by decide⟩
theorem witness_EqualBytesMeanEqualMemory : w.mem.wf ∧ (w.mem.writeByte 8 0xEF).wf ∧
    w.mem.size = (w.mem.writeByte 8 0xEF).size := by decide
theorem witness_HostRegisterAccessContract : 7 < Config.regCount ∧ Config.regCount ≤ 8 := by decide
theorem witness_HostWordAccess : (252 : Word).toNat + 4 ≤ w.mem.size ∧ w.mem.size < (253 : Word).toNat + 4 := by
  decide
theorem witness_SnapshotIsWholeState : w.mem.wf ∧ 255 < w.mem.size := by decide
theorem witness_HostTransactionFaults :  -- each clause at its edge; one inside the edge does not fault
    (transact (.getReg 8) w).1 = .fault (.registerFault 8) ∧ Transaction.getReg 8 ≠ .step ∧
    (transact (.setReg 7 0) w).1 = .ok ∧
    (transact (.writeWord 253 1) w).1 = .fault (.addressFault 253) ∧ w.mem.size < (253 : Word).toNat + 4 ∧
    (transact (.writeWord 252 1) w).1 = .ok ∧
    (transact .step { w with pc := 0x80000000 }).1 = .fault (.notImplemented 8) := by decide

end Sys2Proof.Tests
end

section
/-! PROOFS, family 00_scope.md. The two outcomes of a step (R15): every handler ends through `finish`, and so
does the dispatch check, so a step ends in a state or in a fault; HostStep then returns one or the other. -/

namespace Sys2Proof.Machine

/-- A step of a word that decodes performs its instruction (40_execution_cycle.md R111). -/
theorem step_of_decode_ok {s : State} {i : Instr} (h : decode s.pc = .ok i) : step s = exec i s := by
  simp only [step, fetchInstruction, h]

/-- A step of a word that the dispatch check rejects reports the check's fault (R113). -/
theorem step_of_decode_error {s : State} {e : DecodeError} (h : decode s.pc = .error e) :
    step s = .fault (dispatchFault e) := by
  simp only [step, fetchInstruction, h, raise]

theorem hostStep_of_next {s t : State} (h : step s = .next t) : hostStep s = (.ok, t) := by
  simp only [hostStep, h]

theorem hostStep_of_fault {s : State} {f : Fault} (h : step s = .fault f) :
    hostStep s = (.fault f, s) := by
  simp only [hostStep, h]

/-- Every instruction ends the way a handler ends (R117): eight close with `finish`, and raising a fault,
all that the five unimplemented slots do, is `finish` of an error. -/
theorem exec_eq_finish (i : Instr) (s : State) : ∃ r, exec i s = finish r := by
  cases i
  case fetch | store | set | setc | add | sub | mul | div => exact ⟨_, rfl⟩
  case shl | shr | and | or | xor => exact ⟨.error (.notImplemented _), rfl⟩

/-- Every step ends the way a handler ends, the dispatch check's fault included (R113, R117). -/
theorem step_eq_finish (s : State) : ∃ r, step s = finish r := by
  cases h : decode s.pc with
  | ok i => rw [step_of_decode_ok h]; exact exec_eq_finish i s
  | error e => exact ⟨.error (dispatchFault e), step_of_decode_error h⟩

/-- The two outcomes of a step (R15). -/
theorem step_eq_next_or_fault (s : State) : (∃ t, step s = .next t) ∨ ∃ f, step s = .fault f := by
  obtain ⟨r, h⟩ := step_eq_finish s
  cases r with
  | ok t => exact .inl ⟨t, h⟩
  | error f => exact .inr ⟨f, h⟩

/-- Settles O26: the step has one of R15's two outcomes, and HostStep returns accordingly. -/
theorem stepIsOkOrFaultNeverRefused : Obligations.StepIsOkOrFaultNeverRefused := by
  intro s
  rcases step_eq_next_or_fault s with ⟨t, h⟩ | ⟨f, h⟩
  · exact .inl ⟨t, h, hostStep_of_next h⟩
  · exact .inr ⟨f, h, hostStep_of_fault h⟩

end Sys2Proof.Machine
end

section
/-! PROOFS, family 10_state.md. No step writes `pc` (R28): a handler that completes has made one write, to a
general register or to a memory word (R118), and neither reaches `pc`; a fault leaves the state as it was. Then
the state after reset (R38 to R41). -/

namespace Sys2Proof.Machine

/-- If a chain of operations succeeds, its first one did, and the rest did on its value. -/
theorem except_bind_eq_ok {ε α β : Type} {x : Except ε α} {k : α → Except ε β} {b : β} :
    (x >>= k) = .ok b ↔ ∃ a, x = .ok a ∧ k a = .ok b := by
  cases x with
  | ok a => simp [bind, Except.bind]
  | error e => simp [bind, Except.bind]

/-- `t` is `s` after one write of the kinds that R118 allows an instruction: a general register or a word of
memory. -/
inductive OneWrite (s : State) : State → Prop where
  | reg (r : Reg) (v : Word) : OneWrite s (s.writeReg r v)
  | word (o v : Word) (m : Memory) (h : s.mem.writeWord o v = .ok m) : OneWrite s { s with mem := m }

theorem OneWrite.pc_eq {s t : State} (h : OneWrite s t) : t.pc = s.pc := by
  cases h with
  | reg r v => exact s.writeReg_pc r v
  | word o v m h => rfl

theorem oneWrite_of_execFetch {op1 op2 : Field} {s t : State} (h : execFetch op1 op2 s = .next t) :
    OneWrite s t := by
  obtain ⟨⟨ra, rd⟩, -, h⟩ := except_bind_eq_ok.mp (finish_eq_next.mp h)
  obtain ⟨v, -, ⟨⟩⟩ := except_bind_eq_ok.mp h
  exact .reg rd v

theorem oneWrite_of_execStore {op1 op2 : Field} {s t : State} (h : execStore op1 op2 s = .next t) :
    OneWrite s t := by
  obtain ⟨⟨rs, ra⟩, -, h⟩ := except_bind_eq_ok.mp (finish_eq_next.mp h)
  obtain ⟨m, hm, ⟨⟩⟩ := except_bind_eq_ok.mp h
  exact .word _ _ m hm

theorem oneWrite_of_execSet {op1 op2 : Field} {s t : State} (h : execSet op1 op2 s = .next t) :
    OneWrite s t := by
  obtain ⟨⟨rs, rd⟩, -, ⟨⟩⟩ := except_bind_eq_ok.mp (finish_eq_next.mp h)
  exact .reg rd _

theorem oneWrite_of_execSetc {op1 : Field} {k : Const} {s t : State} (h : execSetc op1 k s = .next t) :
    OneWrite s t := by
  obtain ⟨rd, -, ⟨⟩⟩ := except_bind_eq_ok.mp (finish_eq_next.mp h)
  exact .reg rd _

theorem oneWrite_of_execAlu {result : Word → Word → Except Fault Word} {op1 op2 op3 : Field} {s t : State}
    (h : execAlu result op1 op2 op3 s = .next t) : OneWrite s t := by
  obtain ⟨⟨ra, rb, rd⟩, -, h⟩ := except_bind_eq_ok.mp (finish_eq_next.mp h)
  obtain ⟨v, -, ⟨⟩⟩ := except_bind_eq_ok.mp h
  exact .reg rd v

/-- Everything an instruction that completes can have done (R118); an unimplemented slot never completes. -/
theorem oneWrite_of_exec {i : Instr} {s t : State} (h : exec i s = .next t) : OneWrite s t := by
  cases i
  case fetch => exact oneWrite_of_execFetch h
  case store => exact oneWrite_of_execStore h
  case set => exact oneWrite_of_execSet h
  case setc => exact oneWrite_of_execSetc h
  case add => exact oneWrite_of_execAlu (result := fun a b => .ok (addResult a b)) h
  case sub => exact oneWrite_of_execAlu (result := fun a b => .ok (subResult a b)) h
  case mul => exact oneWrite_of_execAlu (result := fun a b => .ok (mulResult a b)) h
  case div => exact oneWrite_of_execAlu h
  case shl | shr | and | or | xor => cases h

/-- Everything a step that completes can have done (R118): the dispatch check writes nothing. -/
theorem oneWrite_of_step {s t : State} (h : step s = .next t) : OneWrite s t := by
  cases hd : decode s.pc with
  | ok i => exact oneWrite_of_exec ((step_of_decode_ok hd).symm.trans h)
  | error e => cases (step_of_decode_error hd).symm.trans h

/-- Settles O23: a completed step made one write, which is not to `pc`; a faulted one made none. -/
theorem stepNeverChangesPc : Obligations.StepNeverChangesPc := by
  intro s
  rcases step_eq_next_or_fault s with ⟨t, h⟩ | ⟨f, h⟩
  · rw [hostStep_of_next h]
    exact (oneWrite_of_step h).pc_eq
  · rw [hostStep_of_fault h]

/-- After reset every general register is zero (R38). -/
theorem getElem_resetOf_x (n k : Nat) (h : k < Config.regCount) : (State.resetOf n).x[k] = 0 := by
  rw [State.resetOf_x, Vector.getElem_replicate]

/-- R39: the word that reset leaves in `pc` is FETCH r0, r0. -/
theorem decode_zero : decode 0 = .ok (.fetch 0 0) := by decide

/-- A memory that lists no byte reads zero everywhere, as after reset (R41). -/
theorem Memory.byteAt_of_cells_nil (n a : Nat) : (Memory.mk n []).byteAt a = 0 := rfl

/-- Settles O34, field by field. -/
theorem resetStateIsAllZero : Obligations.ResetStateIsAllZero := fun n =>
  ⟨getElem_resetOf_x n, State.resetOf_pc n, decode_zero, State.resetOf_memAddr n, State.resetOf_memData n,
    State.resetOf_flags n, rfl, fun a _ => Memory.byteAt_of_cells_nil n a⟩

end Sys2Proof.Machine
end

section
/-! PROOFS, family 20_memory.md. The byte order (R54): the bytes of a word in R12's arithmetic, and the value
that four bytes put together have. With them the two word accesses, in bounds and out of bounds, say in numbers
what `Memory.readWord_eq` and `Memory.writeWord_spec` say in bits. -/

namespace Sys2Proof.Machine

/-- Bits 8k+7 to 8k of a word are its byte `k` in R12's formula. -/
theorem byteOf_toNat (v : Word) (k : Nat) : (byteOf v k).toNat = byteValue v k := by
  rw [byteOf, byteValue, BitVec.extractLsb'_toNat, Nat.shiftRight_eq_div_pow]

/-- Putting a bit string above another adds its value shifted past the lower one. -/
theorem toNat_append_eq_add {n k : Nat} (hi : BitVec n) (lo : BitVec k) :
    (hi ++ lo).toNat = 2 ^ k * hi.toNat + lo.toNat := by
  rw [BitVec.toNat_append, ← Nat.shiftLeft_add_eq_or_of_lt lo.isLt, Nat.shiftLeft_eq, Nat.mul_comm]

/-- R54: the four bytes at an offset, the lowest one least significant, have the little-endian value. -/
theorem toNat_append_byteAt (m : Memory) (o : Nat) :
    (m.byteAt (o + 3) ++ m.byteAt (o + 2) ++ m.byteAt (o + 1) ++ m.byteAt o).toNat = wordValue m o := by
  simp only [toNat_append_eq_add, wordValue]
  omega

/-- A word read in bounds (R56). -/
theorem Memory.readWord_of_inBounds {m : Memory} {o : Word} (h : m.InBounds o) :
    ∃ v, m.readWord o = .ok v ∧ v.toNat = wordValue m o.toNat := by
  rcases m.readWord_eq o with ⟨-, hr⟩ | ⟨hn, -⟩
  · exact ⟨_, hr, toNat_append_byteAt m o.toNat⟩
  · exact absurd h hn

/-- A word read out of bounds (R56). -/
theorem Memory.readWord_of_lt {m : Memory} {o : Word} (h : m.size < o.toNat + 4) :
    m.readWord o = .error (.addressFault o) := by
  rcases m.readWord_eq o with ⟨hb, -⟩ | ⟨-, hr⟩
  · exact absurd hb (Nat.not_le.mpr h)
  · exact hr

/-- A word write in bounds (R57): the four bytes of the word, and the frame. -/
theorem Memory.writeWord_of_inBounds {m : Memory} {o : Word} (v : Word) (h : m.InBounds o) :
    ∃ m', m.writeWord o v = .ok m' ∧ m'.size = m.size ∧
      (∀ k, k < 4 → (m'.byteAt (o.toNat + k)).toNat = byteValue v k) ∧
      ∀ a, ¬(o.toNat ≤ a ∧ a < o.toNat + 4) → m'.byteAt a = m.byteAt a := by
  rcases m.writeWord_spec o v with ⟨-, m', hw, hsize, -, hbyte⟩ | ⟨hn, -⟩
  · refine ⟨m', hw, hsize, fun k hk => ?written, fun a ha => ?frame⟩
    case written =>
      have hin : o.toNat ≤ o.toNat + k ∧ o.toNat + k < o.toNat + 4 := by omega
      rw [hbyte, if_pos hin, Nat.add_sub_cancel_left, byteOf_toNat]
    case frame => rw [hbyte, if_neg ha]
  · exact absurd h hn

/-- A word write out of bounds (R57). -/
theorem Memory.writeWord_of_lt {m : Memory} {o : Word} (v : Word) (h : m.size < o.toNat + 4) :
    m.writeWord o v = .error (.addressFault o) := by
  rcases m.writeWord_spec o v with ⟨hb, -⟩ | ⟨-, hw⟩
  · exact absurd hb (Nat.not_le.mpr h)
  · exact hw

/-- Settles O36: the two sides of the bounds test of a word read. -/
theorem memReadGivesLittleEndianWord : Obligations.MemReadGivesLittleEndianWord :=
  fun _ _ => ⟨Memory.readWord_of_inBounds, Memory.readWord_of_lt⟩

/-- Settles O37: the two sides of the bounds test of a word write. -/
theorem memWriteOverwritesFourBytes : Obligations.MemWriteOverwritesFourBytes :=
  fun _ _ v => ⟨Memory.writeWord_of_inBounds v, Memory.writeWord_of_lt v⟩

end Sys2Proof.Machine
end

section
/-! PROOFS, family 30_encoding.md. The used bits (R87): two words that agree on the bits an instruction uses
have the same row of the dispatch table and the same operands, and what a handler does depends on `pc` nowhere,
so it commutes with loading another word there. Then the illegal words (R88), read off the opcode digit. -/

namespace Sys2Proof

/-- Words that agree under a mask agree on every bit range that the mask covers. -/
theorem extractLsb'_eq_of_and_eq {w w' m : Word} {start len : Nat} (h : w &&& m = w' &&& m)
    (hm : m.extractLsb' start len = BitVec.allOnes len) :
    w'.extractLsb' start len = w.extractLsb' start len := by
  have hx := congrArg (BitVec.extractLsb' start len) h
  rw [BitVec.extractLsb'_and, BitVec.extractLsb'_and, hm, BitVec.and_allOnes, BitVec.and_allOnes] at hx
  exact hx.symm

/-- A row of the dispatch table ignores the bits that its instruction does not use (R87). -/
def IgnoresUnusedBits (row : Fields → Instr) : Prop :=
  ∀ {w w' : Word} {i : Instr}, row (decodeFields w) = i → w &&& i.usedBits = w' &&& i.usedBits →
    row (decodeFields w') = i

/-- R86, two register operands: the mask covers `op1` and `op2`. -/
theorem ignoresUnusedBits_twoReg {c : Field → Field → Instr} (hc : ∀ a b, (c a b).usedBits = 0xFFF00000) :
    IgnoresUnusedBits fun f => c f.op1 f.op2 := by
  rintro w w' _ rfl h
  rw [hc] at h
  exact congrArg₂ c (extractLsb'_eq_of_and_eq h rfl) (extractLsb'_eq_of_and_eq h rfl)

/-- R86, three register operands: the mask covers `op1`, `op2` and `op3`. -/
theorem ignoresUnusedBits_threeReg {c : Field → Field → Field → Instr}
    (hc : ∀ a b d, (c a b d).usedBits = 0xFFFF0000) : IgnoresUnusedBits fun f => c f.op1 f.op2 f.op3 := by
  rintro w w' _ rfl h
  rw [hc] at h
  exact congr (congrArg₂ c (extractLsb'_eq_of_and_eq h rfl) (extractLsb'_eq_of_and_eq h rfl))
    (extractLsb'_eq_of_and_eq h rfl)

/-- R86, one register operand and the constant: the mask covers `op1` and `constant`. -/
theorem ignoresUnusedBits_regConst {c : Field → Const → Instr}
    (hc : ∀ a k, (c a k).usedBits = 0xFF00FFFF) : IgnoresUnusedBits fun f => c f.op1 f.constant := by
  rintro w w' _ rfl h
  rw [hc] at h
  exact congrArg₂ c (extractLsb'_eq_of_and_eq h rfl) (extractLsb'_eq_of_and_eq h rfl)

/-- R86, the unimplemented slots: no operand. -/
theorem ignoresUnusedBits_const (i : Instr) : IgnoresUnusedBits fun _ => i := fun hi _ => hi

theorem ignoresUnusedBits_of_mem : ∀ row ∈ dispatchTable, IgnoresUnusedBits row := by
  simp only [dispatchTable, List.forall_mem_cons]
  exact ⟨ignoresUnusedBits_twoReg fun _ _ => rfl, ignoresUnusedBits_twoReg fun _ _ => rfl,
    ignoresUnusedBits_twoReg fun _ _ => rfl, ignoresUnusedBits_threeReg fun _ _ _ => rfl,
    ignoresUnusedBits_threeReg fun _ _ _ => rfl, ignoresUnusedBits_threeReg fun _ _ _ => rfl,
    ignoresUnusedBits_threeReg fun _ _ _ => rfl, ignoresUnusedBits_regConst fun _ _ => rfl,
    ignoresUnusedBits_const _, ignoresUnusedBits_const _, ignoresUnusedBits_const _,
    ignoresUnusedBits_const _, ignoresUnusedBits_const _, List.forall_mem_nil _⟩

/-- Every instruction uses the opcode bits (R85: they alone select it). -/
theorem Instr.extractLsb'_usedBits_opcode (i : Instr) : i.usedBits.extractLsb' 28 4 = BitVec.allOnes 4 := by
  cases i <;> simp only [Instr.usedBits] <;> rfl

/-- A word decodes to an instruction where its opcode index has a row, and to what the row makes of its
fields (R85). -/
theorem decode_eq_ok_iff {w : Word} {i : Instr} : decode w = .ok i ↔
    ∃ row, dispatchTable[(decodeFields w).opcodeIndex.toNat]? = some row ∧ row (decodeFields w) = i := by
  cases h : dispatchTable[(decodeFields w).opcodeIndex.toNat]? <;> simp [decode, h]

/-- A word is rejected where its opcode index has no row (R88), with that index. -/
theorem decode_eq_error_iff {w : Word} {n : Nat} : decode w = .error (.invalidOpcode n) ↔
    dispatchTable[(decodeFields w).opcodeIndex.toNat]? = none ∧ n = (decodeFields w).opcodeIndex.toNat := by
  cases h : dispatchTable[(decodeFields w).opcodeIndex.toNat]? <;> simp [decode, h, eq_comm]

/-- R87 for the decoder: the bits an instruction does not use do not matter. -/
theorem decode_eq_ok_of_and_usedBits_eq {w w' : Word} {i : Instr} (hd : decode w = .ok i)
    (h : w &&& i.usedBits = w' &&& i.usedBits) : decode w' = .ok i := by
  obtain ⟨row, hrow, hi⟩ := decode_eq_ok_iff.mp hd
  have hop : (decodeFields w').opcodeIndex = (decodeFields w).opcodeIndex :=
    extractLsb'_eq_of_and_eq h i.extractLsb'_usedBits_opcode
  exact decode_eq_ok_iff.mpr
    ⟨row, hop ▸ hrow, ignoresUnusedBits_of_mem row (List.mem_of_getElem? hrow) hi h⟩

end Sys2Proof

namespace Sys2Proof.Machine

/-- Changing the state that a handler ends in is changing its result. -/
theorem mapNext_finish (g : State → State) (r : Except Fault State) :
    mapNext g (finish r) = finish (g <$> r) := by
  cases r <;> rfl

section SetPC
variable (w : Word) (s : State)

@[simp] theorem readReg_hostSetPC (r : Reg) : (hostSetPC w s).readReg r = s.readReg r := rfl

@[simp] theorem effectiveOffset_hostSetPC (r : Reg) : effectiveOffset (hostSetPC w s) r = effectiveOffset s r :=
  rfl

/-- Loading `pc` and writing a register do not interfere. -/
theorem writeReg_hostSetPC (r : Reg) (v : Word) :
    (hostSetPC w s).writeReg r v = hostSetPC w (s.writeReg r v) := rfl

theorem execFetch_hostSetPC (op1 op2 : Field) :
    execFetch op1 op2 (hostSetPC w s) = mapNext (hostSetPC w) (execFetch op1 op2 s) := by
  simp only [execFetch, mapNext_finish, map_bind, map_pure, effectiveOffset_hostSetPC, hostSetPC_mem,
    writeReg_hostSetPC]

theorem execStore_hostSetPC (op1 op2 : Field) :
    execStore op1 op2 (hostSetPC w s) = mapNext (hostSetPC w) (execStore op1 op2 s) := by
  simp only [execStore, mapNext_finish, map_bind, map_pure, effectiveOffset_hostSetPC, readReg_hostSetPC,
    hostSetPC_mem]
  rfl

theorem execSet_hostSetPC (op1 op2 : Field) :
    execSet op1 op2 (hostSetPC w s) = mapNext (hostSetPC w) (execSet op1 op2 s) := by
  simp only [execSet, mapNext_finish, map_bind, map_pure, readReg_hostSetPC, writeReg_hostSetPC]

theorem execSetc_hostSetPC (op1 : Field) (k : Const) :
    execSetc op1 k (hostSetPC w s) = mapNext (hostSetPC w) (execSetc op1 k s) := by
  simp only [execSetc, mapNext_finish, map_bind, map_pure, writeReg_hostSetPC]

theorem execAlu_hostSetPC (result : Word → Word → Except Fault Word) (op1 op2 op3 : Field) :
    execAlu result op1 op2 op3 (hostSetPC w s) = mapNext (hostSetPC w) (execAlu result op1 op2 op3 s) := by
  simp only [execAlu, mapNext_finish, map_bind, map_pure, readReg_hostSetPC, writeReg_hostSetPC]

/-- No handler depends on the word in `pc`: it does the same whatever word is loaded there, and leaves it. -/
theorem exec_hostSetPC (i : Instr) : exec i (hostSetPC w s) = mapNext (hostSetPC w) (exec i s) := by
  cases i
  case fetch => exact execFetch_hostSetPC ..
  case store => exact execStore_hostSetPC ..
  case set => exact execSet_hostSetPC ..
  case setc => exact execSetc_hostSetPC ..
  case add => exact execAlu_hostSetPC w s (fun a b => .ok (addResult a b)) ..
  case sub => exact execAlu_hostSetPC w s (fun a b => .ok (subResult a b)) ..
  case mul => exact execAlu_hostSetPC w s (fun a b => .ok (mulResult a b)) ..
  case div => exact execAlu_hostSetPC w s divResult ..
  case shl | shr | and | or | xor => rfl

end SetPC

/-- Settles O18: the two words are one instruction, and no handler depends on the word in `pc`. -/
theorem unusedFieldsAreIgnored : Obligations.UnusedFieldsAreIgnored := by
  intro w w' i hd h
  have hd' := decode_eq_ok_of_and_usedBits_eq hd h
  refine ⟨hd', fun s => ?_⟩
  calc step (hostSetPC w' s)
      = exec i (hostSetPC w' (hostSetPC w s)) := step_of_decode_ok hd'
    _ = mapNext (hostSetPC w') (exec i (hostSetPC w s)) := exec_hostSetPC ..
    _ = mapNext (hostSetPC w') (step (hostSetPC w s)) := by rw [step_of_decode_ok (s := hostSetPC w s) hd]

/-- The opcode index is the word's highest hexadecimal digit (R81). -/
theorem opcodeIndex_toNat (w : Word) : (decodeFields w).opcodeIndex.toNat = hexDigit w 7 := by
  rw [decodeFields, BitVec.extractLsb'_toNat, Nat.shiftRight_eq_div_pow, hexDigit]
  norm_num

/-- The dispatch check (R113) in terms of the word's opcode digit. -/
theorem decode_eq_error_iff_hexDigit {w : Word} {n : Nat} :
    decode w = .error (.invalidOpcode n) ↔ Config.handlerCount ≤ hexDigit w 7 ∧ n = hexDigit w 7 := by
  rw [decode_eq_error_iff, List.getElem?_eq_none_iff, opcodeIndex_toNat]
  rfl

/-- R88: the words whose opcode digit has no handler are those from 0xD0000000 on. -/
theorem handlerCount_le_hexDigit_iff {w : Word} : Config.handlerCount ≤ hexDigit w 7 ↔ 0xD0000000 ≤ w.toNat := by
  have hw := w.isLt
  simp only [hexDigit, Config.handlerCount]
  omega

/-- Settles O19: the dispatch check on the opcode digit, and its fault, which leaves the state as it was. -/
theorem illegalOpcodesFaultAtDispatch : Obligations.IllegalOpcodesFaultAtDispatch := by
  refine ⟨fun w n => ?rejected, fun s hs => ?unchanged⟩
  case rejected => rw [decode_eq_error_iff_hexDigit, handlerCount_le_hexDigit_iff]
  case unchanged =>
    exact hostStep_of_fault (step_of_decode_error (decode_eq_error_iff_hexDigit.mpr ⟨hs, rfl⟩))

end Sys2Proof.Machine
end

section
/-! PROOFS, family 40_execution_cycle.md. What an instruction does once its register fields are checked: where a
used field is 8 or more, it faults with the first such field (R115); otherwise a handler is its rule on the
registers named, which makes the rule's one write (R118) or raises a fault of another kind. Then a faulted step
at the host (R121, R222). -/

namespace Sys2Proof.Machine

/-! ### The register-index check -/

/-- The register-index check passes exactly when the instruction is well-formed (R115). -/
theorem firstBadReg_usedRegs_eq_none_iff {i : Instr} : firstBadReg i.usedRegs = none ↔ i.WellFormed := by
  simp only [firstBadReg, Option.map_eq_none_iff, List.find?_eq_none, decide_eq_true_eq, Nat.not_le]

theorem resolveTwo_of_firstBadReg {a b : Field} {n : Nat} (h : firstBadReg [a, b] = some n) :
    resolveTwo a b = .error (.registerFault n) := by
  rcases resolveTwo_spec a b with ⟨-, -, hnone, -⟩ | ⟨m, hm, hr⟩
  · cases hnone.symm.trans h
  · cases hm.symm.trans h
    exact hr

theorem resolveThree_of_firstBadReg {a b d : Field} {n : Nat} (h : firstBadReg [a, b, d] = some n) :
    resolveThree a b d = .error (.registerFault n) := by
  rcases resolveThree_spec a b d with ⟨-, -, -, hnone, -⟩ | ⟨m, hm, hr⟩
  · cases hnone.symm.trans h
  · cases hm.symm.trans h
    exact hr

theorem resolveReg_of_firstBadReg {a : Field} {n : Nat} (h : firstBadReg [a] = some n) :
    resolveReg a.toNat = .error (.registerFault n) := by
  rw [firstBadReg_cons, firstBadReg_nil] at h
  split at h
  next hge =>
    cases h
    exact resolveReg_of_ge hge
  next => cases h

/-- A handler whose first operation fails ends in that operation's fault. -/
theorem finish_bind_of_error {α : Type} {x : Except Fault α} {f : Fault} (k : α → Except Fault State)
    (h : x = .error f) : finish (x >>= k) = .fault f := by
  rw [h]
  rfl

/-- R115 for every instruction: the first used field that is no register index is its fault. -/
theorem faultsOnBadReg_usedRegs (i : Instr) : FaultsOnBadReg i.usedRegs i := by
  intro s n h
  cases i
  case fetch | store | set => exact finish_bind_of_error _ (resolveTwo_of_firstBadReg h)
  case add | sub | mul | div => exact finish_bind_of_error _ (resolveThree_of_firstBadReg h)
  case setc => exact finish_bind_of_error _ (resolveReg_of_firstBadReg h)
  case shl | shr | and | or | xor => cases h

/-! ### The handlers on checked register fields -/

section Checked
variable {op1 op2 op3 : Field} (s : State) (h1 : op1.toNat < Config.regCount)
  (h2 : op2.toNat < Config.regCount) (h3 : op3.toNat < Config.regCount)

theorem execFetch_of_lt : execFetch op1 op2 s =
    finish (s.writeReg ⟨op2.toNat, h2⟩ <$> s.mem.readWord s.x[op1.toNat]) := by
  rw [execFetch, resolveTwo_of_lt h1 h2]
  rfl

theorem execStore_of_lt : execStore op1 op2 s =
    finish ((fun mem => { s with mem }) <$> s.mem.writeWord s.x[op2.toNat] s.x[op1.toNat]) := by
  rw [execStore, resolveTwo_of_lt h1 h2]
  rfl

theorem execSet_of_lt : execSet op1 op2 s = .next (s.writeReg ⟨op2.toNat, h2⟩ s.x[op1.toNat]) := by
  rw [execSet, resolveTwo_of_lt h1 h2]
  rfl

theorem execSetc_of_lt (k : Const) :
    execSetc op1 k s = .next (s.writeReg ⟨op1.toNat, h1⟩ (constantOperand k)) := by
  rw [execSetc, resolveReg_of_lt h1]
  rfl

theorem execAlu_of_lt (result : Word → Word → Except Fault Word) : execAlu result op1 op2 op3 s =
    finish (s.writeReg ⟨op3.toNat, h3⟩ <$> result s.x[op1.toNat] s.x[op2.toNat]) := by
  rw [execAlu, resolveThree_of_lt h1 h2 h3]
  rfl

/-- An ALU handler whose result function never faults (R161 to R163). -/
theorem execAlu_ok_of_lt (result : Word → Word → Word) :
    execAlu (fun a b => .ok (result a b)) op1 op2 op3 s =
      .next (s.writeReg ⟨op3.toNat, h3⟩ (result s.x[op1.toNat] s.x[op2.toNat])) :=
  execAlu_of_lt s h1 h2 h3 _

end Checked

/-! ### The one write of an instruction -/

@[simp] theorem regValue_of_lt {s : State} {k : Nat} (h : k < Config.regCount) : regValue s k = s.x[k] := by
  rw [regValue, Vector.getElem?_eq_getElem h, Option.getD_some]

theorem writesReg_writeReg {s : State} {d : Field} {p : Word → Prop} {v : Word}
    (hd : d.toNat < Config.regCount) (hv : p v) : WritesReg d p s (s.writeReg ⟨d.toNat, hd⟩ v) :=
  ⟨hd, by rwa [getElem_writeReg_self], onlyRegMayDiffer_writeReg s d.toNat hd v⟩

/-- The constant operand is the constant's value: zero-extended (D2). -/
theorem toNat_constantOperand (k : Const) : (constantOperand k).toNat = k.toNat :=
  BitVec.toNat_setWidth_of_le (by decide)

/-- What performing an instruction comes to once its register fields are checked: the one write of its rule,
or a fault that is not about a register index. -/
def EffectOrOtherFault (i : Instr) (s : State) : Prop :=
  (∃ t, exec i s = .next t ∧ EffectOf i s t) ∨ ∃ f, exec i s = .fault f ∧ ∀ n, f ≠ .registerFault n

section Checked
variable {op1 op2 op3 : Field} (s : State) (h1 : op1.toNat < Config.regCount)
  (h2 : op2.toNat < Config.regCount) (h3 : op3.toNat < Config.regCount)
include h1

theorem effectOrOtherFault_setc (k : Const) : EffectOrOtherFault (.setc op1 k) s :=
  .inl ⟨_, execSetc_of_lt s h1 k,
    writesReg_writeReg (p := fun v => v.toNat = k.toNat) h1 (toNat_constantOperand k)⟩

include h2

theorem effectOrOtherFault_fetch : EffectOrOtherFault (.fetch op1 op2) s := by
  have hexec := execFetch_of_lt s h1 h2
  by_cases hb : s.mem.InBounds s.x[op1.toNat]
  · obtain ⟨v, hread, hv⟩ := Memory.readWord_of_inBounds hb
    rw [hread] at hexec
    refine .inl ⟨_, hexec, ?_⟩
    simp only [EffectOf, regValue_of_lt h1]
    exact ⟨hb, writesReg_writeReg h2 hv⟩
  · rw [Memory.readWord_of_lt (Nat.not_le.mp hb)] at hexec
    exact .inr ⟨_, hexec, nofun⟩

theorem effectOrOtherFault_store : EffectOrOtherFault (.store op1 op2) s := by
  have hexec := execStore_of_lt s h1 h2
  by_cases hb : s.mem.InBounds s.x[op2.toNat]
  · obtain ⟨m, hwrite, hsize, hbytes, hframe⟩ := Memory.writeWord_of_inBounds s.x[op1.toNat] hb
    rw [hwrite] at hexec
    refine .inl ⟨_, hexec, h2, hb, ?_, rfl, ⟨rfl, rfl, rfl, rfl⟩, hsize, hframe⟩
    rw [regValue_of_lt h1]
    exact hbytes
  · rw [Memory.writeWord_of_lt _ (Nat.not_le.mp hb)] at hexec
    exact .inr ⟨_, hexec, nofun⟩

theorem effectOrOtherFault_set : EffectOrOtherFault (.set op1 op2) s :=
  .inl ⟨_, execSet_of_lt s h1 h2,
    writesReg_writeReg (p := fun v => v = regValue s op1.toNat) h2 (regValue_of_lt h1).symm⟩

include h3

theorem effectOrOtherFault_div : EffectOrOtherFault (.div op1 op2 op3) s := by
  have hexec := execAlu_of_lt s h1 h2 h3 divResult
  rcases divResult_eq s.x[op1.toNat] s.x[op2.toNat] with ⟨hne, hr⟩ | ⟨-, hr⟩ <;> rw [hr] at hexec
  · refine .inl ⟨_, hexec, ?_⟩
    simp only [EffectOf, regValue_of_lt h1, regValue_of_lt h2]
    exact ⟨fun h0 => hne (congrArg BitVec.toInt h0), writesReg_writeReg h3 (wraps_wrap32 _)⟩
  · exact .inr ⟨_, hexec, nofun⟩

end Checked

/-- A well-formed instruction makes the one write of its rule (R118) or raises no RegisterFault. -/
theorem effectOrOtherFault_of_wellFormed {i : Instr} (h : i.WellFormed) (s : State) :
    EffectOrOtherFault i s := by
  cases i <;> simp only [Instr.WellFormed, Instr.usedRegs, List.forall_mem_cons] at h
  case fetch =>
    obtain ⟨h1, h2, -⟩ := h
    exact effectOrOtherFault_fetch s h1 h2
  case store =>
    obtain ⟨h1, h2, -⟩ := h
    exact effectOrOtherFault_store s h1 h2
  case set =>
    obtain ⟨h1, h2, -⟩ := h
    exact effectOrOtherFault_set s h1 h2
  case setc =>
    obtain ⟨h1, -⟩ := h
    exact effectOrOtherFault_setc s h1 _
  case add | sub | mul =>
    obtain ⟨h1, h2, h3, -⟩ := h
    refine .inl ⟨_, execAlu_ok_of_lt s h1 h2 h3 _, ?_⟩
    simp only [EffectOf, regValue_of_lt h1, regValue_of_lt h2]
    exact writesReg_writeReg h3 (wraps_wrap32 _)
  case div =>
    obtain ⟨h1, h2, h3, -⟩ := h
    exact effectOrOtherFault_div s h1 h2 h3
  case shl | shr | and | or | xor => exact .inr ⟨_, rfl, nofun⟩

/-- The one write is to a general register or to memory, so the special registers are as before. -/
theorem OneWrite.sameSpecials {s t : State} (h : OneWrite s t) : SameSpecials s t := by
  cases h <;> exact ⟨rfl, rfl, rfl, rfl⟩

/-- An instruction that completes is well-formed and made the one write of its rule (R115, R118). -/
theorem wellFormed_and_effectOf_of_exec {i : Instr} {s t : State} (h : exec i s = .next t) :
    i.WellFormed ∧ EffectOf i s t := by
  cases hbad : firstBadReg i.usedRegs with
  | some n => cases (faultsOnBadReg_usedRegs i s n hbad).symm.trans h
  | none =>
    have hwf := firstBadReg_usedRegs_eq_none_iff.mp hbad
    rcases effectOrOtherFault_of_wellFormed hwf s with ⟨t', ht', heffect⟩ | ⟨f, hf, -⟩
    · cases ht'.symm.trans h
      exact ⟨hwf, heffect⟩
    · cases hf.symm.trans h

/-- Settles O22: the word in `pc` decodes, since the step completes, and its handler made one write. -/
theorem successfulStepMakesOneWrite : Obligations.SuccessfulStepMakesOneWrite := by
  intro s t h
  refine ⟨(oneWrite_of_step h).sameSpecials, ?_⟩
  cases hd : decode s.pc with
  | ok i => exact ⟨i, rfl, wellFormed_and_effectOf_of_exec ((step_of_decode_ok hd).symm.trans h)⟩
  | error e => cases (step_of_decode_error hd).symm.trans h

/-! ### The fields that are checked -/

/-- An instruction that reports a RegisterFault has a register field that is no register index, and reports
the first (R115). -/
theorem firstBadReg_of_exec {i : Instr} {s : State} {n : Nat} (h : exec i s = .fault (.registerFault n)) :
    firstBadReg i.usedRegs = some n := by
  cases hbad : firstBadReg i.usedRegs with
  | some m =>
    cases (faultsOnBadReg_usedRegs i s m hbad).symm.trans h
    rfl
  | none =>
    rcases effectOrOtherFault_of_wellFormed (firstBadReg_usedRegs_eq_none_iff.mp hbad) s with
      ⟨t, ht, -⟩ | ⟨f, hf, hne⟩
    · cases ht.symm.trans h
    · cases hf.symm.trans h
      exact absurd rfl (hne n)

/-- Four bits of a word at a multiple of four are a hexadecimal digit (R81). -/
theorem toNat_extractLsb'_four (w : Word) (k : Nat) : (w.extractLsb' (4 * k) 4).toNat = hexDigit w k := by
  rw [BitVec.extractLsb'_toNat, Nat.shiftRight_eq_div_pow, Nat.pow_mul]
  rfl

theorem op1_toNat (w : Word) : (decodeFields w).op1.toNat = hexDigit w 6 := toNat_extractLsb'_four w 6

theorem op2_toNat (w : Word) : (decodeFields w).op2.toNat = hexDigit w 5 := toNat_extractLsb'_four w 5

theorem op3_toNat (w : Word) : (decodeFields w).op3.toNat = hexDigit w 4 := toNat_extractLsb'_four w 4

/-- R86 and R115's list agree: the register fields that row `n` of the dispatch table binds are the digits
that opcode index `n` uses. -/
theorem usedRegs_of_dispatchTable (w : Word) {n : Nat} {row : Fields → Instr}
    (h : dispatchTable[n]? = some row) :
    (row (decodeFields w)).usedRegs.map (·.toNat) = (usedDigits n).map (hexDigit w) := by
  match n with
  | 0 | 1 | 2 =>
    cases h
    exact congrArg₂ (fun a b => [a, b]) (op1_toNat w) (op2_toNat w)
  | 3 | 4 | 5 | 6 =>
    cases h
    exact congr (congrArg₂ (fun a b d => [a, b, d]) (op1_toNat w) (op2_toNat w)) (op3_toNat w)
  | 7 =>
    cases h
    exact congrArg (fun a => [a]) (op1_toNat w)
  | 8 | 9 | 10 | 11 | 12 =>
    cases h
    rfl
  | n + 13 => cases h

/-- Settles O14: the check as every handler makes it, and the digits it reads. -/
theorem registerIndexCheckInFieldOrder : Obligations.RegisterIndexCheckInFieldOrder := by
  refine ⟨faultsOnBadReg_usedRegs, fun _ _ _ => firstBadReg_of_exec, fun w i hd => ?_⟩
  obtain ⟨row, hrow, rfl⟩ := decode_eq_ok_iff.mp hd
  rw [opcodeIndex_toNat] at hrow
  exact usedRegs_of_dispatchTable w hrow

/-! ### A faulted step at the host -/

/-- HostStep returns a fault exactly when its step faults (R191). -/
theorem hostStep_fst_eq_fault_iff {s : State} {f : Fault} :
    (hostStep s).1 = .fault f ↔ step s = .fault f := by
  rcases step_eq_next_or_fault s with ⟨t, h⟩ | ⟨g, h⟩
  · simp [hostStep_of_next h, h]
  · simp [hostStep_of_fault h, h]

/-- Settles O33: the faulted step left the state it started from, so the next step is the same one. -/
theorem faultedStepLeavesStateAndRecurs : Obligations.FaultedStepLeavesStateAndRecurs := by
  intro s f h
  have hstep := hostStep_of_fault (hostStep_fst_eq_fault_iff.mp h)
  have hkept : (hostStep s).2 = s := congrArg Prod.snd hstep
  exact ⟨hkept, by rw [hkept, hstep]⟩

end Sys2Proof.Machine
end

section
/-! PROOFS, family 41_memory_ops.md. First the encoding of a two-register row (R85, R86), read off the dispatch
table and the instruction's fields. Then FETCH (R141) and STORE (R142) on checked register fields: each is a word
access at the value of the offset register, so its two outcomes are the two sides of the access's bounds test. -/

namespace Sys2Proof

/-- A word's fields go to the row of the dispatch table at its opcode digit (R85). -/
theorem decode_of_hexDigit {w : Word} {n : Nat} {row : Fields → Instr} (hn : Machine.hexDigit w 7 = n)
    (hrow : dispatchTable[n]? = some row) : decode w = .ok (row (decodeFields w)) := by
  subst hn
  rw [← Machine.opcodeIndex_toNat] at hrow
  exact decode_eq_ok_iff.mpr ⟨row, hrow, rfl⟩

/-- R92's arithmetic formula: each field of a canonical word at the weight of its lowest bit. -/
theorem toNat_encodeFields (f : Fields) : (encodeFields f).toNat =
    f.opcodeIndex.toNat * 2 ^ 28 + f.op1.toNat * 2 ^ 24 + f.op2.toNat * 2 ^ 20 + f.op3.toNat * 2 ^ 16 +
      f.constant.toNat := by
  simp only [encodeFields, Machine.toNat_append_eq_add]
  omega

end Sys2Proof

namespace Sys2Proof.Machine

/-- A row that binds `op1` and `op2` has the two-register encoding, decoded (R86) and canonical (R92). -/
theorem encodedTwoReg_of_dispatchTable {op : Field} {c : Field → Field → Instr}
    (hrow : dispatchTable[op.toNat]? = some fun f => c f.op1 f.op2)
    (hfields : ∀ a b, (c a b).fields = ⟨op, a, b, 0, 0⟩) : EncodedTwoReg op.toNat c := by
  refine ⟨fun w hw => ?decoded, fun a b => ?canonical⟩
  case decoded => exact ⟨_, _, op1_toNat w, op2_toNat w, decode_of_hexDigit hw hrow⟩
  case canonical => simp [encode, hfields, toNat_encodeFields]

/-- A handler that ends in an operation's answer, put into the state, completes where the operation does. -/
theorem finish_map_of_ok {α : Type} {x : Except Fault α} {a : α} (g : α → State) (h : x = .ok a) :
    finish (g <$> x) = .next (g a) := by
  rw [h]
  rfl

/-- A handler that ends in an operation's answer, put into the state, faults where the operation does. -/
theorem finish_map_of_error {α : Type} {x : Except Fault α} {f : Fault} (g : α → State) (h : x = .error f) :
    finish (g <$> x) = .fault f := by
  rw [h]
  rfl

section Checked
variable {op1 op2 : Field} {s : State} (h1 : op1.toNat < Config.regCount) (h2 : op2.toNat < Config.regCount)

/-- FETCH with its word in bounds (R141): the little-endian value in the destination, and the frame. -/
theorem exec_fetch_of_inBounds (hb : s.mem.InBounds s.x[op1.toNat]) :
    ∃ t, exec (.fetch op1 op2) s = .next t ∧ t.x[op2.toNat].toNat = wordValue s.mem s.x[op1.toNat].toNat ∧
      OnlyRegMayDiffer op2.toNat s t := by
  obtain ⟨v, hread, hv⟩ := Memory.readWord_of_inBounds hb
  refine ⟨s.writeReg ⟨op2.toNat, h2⟩ v, ?next, ?loaded, onlyRegMayDiffer_writeReg ..⟩
  case next => exact (execFetch_of_lt s h1 h2).trans (finish_map_of_ok _ hread)
  case loaded => rwa [getElem_writeReg_self]

include h2 in
/-- FETCH with its word out of bounds (R141): the fault names the offset. -/
theorem exec_fetch_of_size_lt (hb : s.mem.size < s.x[op1.toNat].toNat + 4) :
    exec (.fetch op1 op2) s = .fault (.addressFault s.x[op1.toNat]) :=
  (execFetch_of_lt s h1 h2).trans (finish_map_of_error _ (Memory.readWord_of_lt hb))

/-- STORE with its word in bounds (R142): the source's bytes at the offset, and the frame. -/
theorem exec_store_of_inBounds (hb : s.mem.InBounds s.x[op2.toNat]) :
    ∃ t, exec (.store op1 op2) s = .next t ∧
      (∀ k, k < 4 → (t.mem.byteAt (s.x[op2.toNat].toNat + k)).toNat = byteValue s.x[op1.toNat] k) ∧
      OnlyWordMayDiffer s.x[op2.toNat].toNat s t := by
  obtain ⟨mem, hwrite, hsize, hbytes, hframe⟩ := Memory.writeWord_of_inBounds s.x[op1.toNat] hb
  exact ⟨{ s with mem }, (execStore_of_lt s h1 h2).trans (finish_map_of_ok _ hwrite), hbytes,
    rfl, ⟨rfl, rfl, rfl, rfl⟩, hsize, hframe⟩

include h1 in
/-- STORE with its word out of bounds (R142): the fault names the offset. -/
theorem exec_store_of_size_lt (hb : s.mem.size < s.x[op2.toNat].toNat + 4) :
    exec (.store op1 op2) s = .fault (.addressFault s.x[op2.toNat]) :=
  (execStore_of_lt s h1 h2).trans (finish_map_of_error _ (Memory.writeWord_of_lt _ hb))

end Checked

/-- Settles O1: row 0 of the dispatch table, the two sides of the read's bounds test, the index check. -/
theorem fetchLoadsWordAtRegisterOffset : Obligations.FetchLoadsWordAtRegisterOffset :=
  ⟨encodedTwoReg_of_dispatchTable (op := 0) rfl fun _ _ => rfl,
    fun _ _ _ h1 h2 => exec_fetch_of_inBounds h1 h2,
    fun _ _ _ h1 h2 => exec_fetch_of_size_lt h1 h2,
    fun op1 op2 => faultsOnBadReg_usedRegs (.fetch op1 op2)⟩

/-- Settles O2: row 1 of the dispatch table, the two sides of the write's bounds test at the offset that the
meaning computes, the index check. -/
theorem storeWritesFourBytesAtRegisterOffset : Obligations.StoreWritesFourBytesAtRegisterOffset := by
  refine ⟨encodedTwoReg_of_dispatchTable (op := 1) rfl fun _ _ => rfl, ?effect,
    fun op1 op2 => faultsOnBadReg_usedRegs (.store op1 op2)⟩
  case effect =>
    rintro op1 op2 s h1 h2 _ rfl
    exact ⟨rfl, exec_store_of_inBounds h1 h2, exec_store_of_size_lt h1 h2⟩

end Sys2Proof.Machine
end

section
/-! PROOFS, family 42_move_ops.md. SET (R151) and SETC (R152): each has its row of the dispatch table and its
canonical word (R85, R86, R92), and on checked register fields its handler is one register write, of the
source's value or of the zero-extended constant. -/

namespace Sys2Proof.Machine

/-- The constant field is the low half of the word (R81). -/
theorem constant_toNat (w : Word) : (decodeFields w).constant.toNat = w.toNat % 2 ^ 16 := by
  rw [decodeFields, BitVec.extractLsb'_toNat, Nat.shiftRight_zero]

/-- SETC's canonical word (R92, R93). -/
theorem toNat_encode_setc (op1 : Field) (k : Const) :
    (encode (.setc op1 k)).toNat = 7 * 2 ^ 28 + op1.toNat * 2 ^ 24 + k.toNat := by
  simp [encode, Instr.fields, toNat_encodeFields]

section Checked
variable {op1 op2 : Field} (s : State) (h1 : op1.toNat < Config.regCount) (h2 : op2.toNat < Config.regCount)

/-- SET (R151): the source's old value in the destination, and the frame; source and destination may be one
register. -/
theorem exec_set_of_lt : ∃ t, exec (.set op1 op2) s = .next t ∧ t.x[op2.toNat] = s.x[op1.toNat] ∧
    OnlyRegMayDiffer op2.toNat s t :=
  ⟨_, execSet_of_lt s h1 h2, getElem_writeReg_self .., onlyRegMayDiffer_writeReg ..⟩

/-- SETC (R152): the zero-extended constant in the destination (D2), and the frame. -/
theorem exec_setc_of_lt (k : Const) : ∃ t, exec (.setc op1 k) s = .next t ∧ t.x[op1.toNat].toNat = k.toNat ∧
    OnlyRegMayDiffer op1.toNat s t := by
  refine ⟨_, execSetc_of_lt s h1 k, ?loaded, onlyRegMayDiffer_writeReg ..⟩
  case loaded => rw [getElem_writeReg_self, toNat_constantOperand]

end Checked

/-- Settles O3: row 2 of the dispatch table, the one register write, the index check. -/
theorem setCopiesRegister : Obligations.SetCopiesRegister :=
  ⟨encodedTwoReg_of_dispatchTable (op := 2) rfl fun _ _ => rfl,
    fun _ _ s h1 h2 => exec_set_of_lt s h1 h2,
    fun op1 op2 => faultsOnBadReg_usedRegs (.set op1 op2)⟩

/-- Settles O8: row 7 of the dispatch table, the canonical word, the one register write, the index check. -/
theorem setcLoadsZeroExtendedConstant : Obligations.SetcLoadsZeroExtendedConstant := by
  refine ⟨fun w hw => ?decoded, toNat_encode_setc, fun _ k s h1 => exec_setc_of_lt s h1 k,
    fun op1 k => faultsOnBadReg_usedRegs (.setc op1 k)⟩
  case decoded => exact ⟨_, _, op1_toNat w, constant_toNat w, decode_of_hexDigit hw rfl⟩

end Sys2Proof.Machine
end

section
/-! PROOFS, family 43_alu_ops.md. The encoding of a three-register row (R85, R86). Then the one frame of ADD,
SUB, MUL and DIV (R160): on checked register fields each ends where its result function does, with the wrapped
integer written to the destination or with the fault; DIV's function faults exactly on a zero divisor (R164). Last
the pair of operands whose quotient is no signed word (R169). -/

namespace Sys2Proof.Machine

/-- A row that binds `op1`, `op2` and `op3` has the three-register encoding, decoded (R86) and canonical (R92). -/
theorem encodedThreeReg_of_dispatchTable {op : Field} {c : Field → Field → Field → Instr}
    (hrow : dispatchTable[op.toNat]? = some fun f => c f.op1 f.op2 f.op3)
    (hfields : ∀ a b d, (c a b d).fields = ⟨op, a, b, d, 0⟩) : EncodedThreeReg op.toNat c := by
  refine ⟨fun w hw => ?decoded, fun a b d => ?canonical⟩
  case decoded => exact ⟨_, _, _, op1_toNat w, op2_toNat w, op3_toNat w, decode_of_hexDigit hw hrow⟩
  case canonical => simp [encode, hfields, toNat_encodeFields]

/-- R13: the pattern of an integer modulo 2^32 is unique. -/
theorem wraps_iff {p : Word} {z : Int} : Wraps p z ↔ p = wrap32 z := by
  refine ⟨fun h => ?unique, fun h => h ▸ wraps_wrap32 z⟩
  case unique => exact BitVec.eq_of_toNat_eq (Int.ofNat_inj.mp (h.trans (wraps_wrap32 z).symm))

/-- DIV's arithmetic with a nonzero divisor (R164, R165). -/
theorem divResult_of_ne_zero (a : Word) {b : Word} (h : b ≠ 0) :
    divResult a b = .ok (wrap32 (Int.tdiv a.toInt b.toInt)) := by
  rcases divResult_eq a b with ⟨-, hr⟩ | ⟨hb, -⟩
  · exact hr
  · exact absurd (BitVec.toInt_inj.mp hb) h

/-- DIV's arithmetic with a zero divisor, whatever the dividend (R164). -/
theorem divResult_zero (a : Word) : divResult a 0 = .error .divisionByZero := by
  rcases divResult_eq a 0 with ⟨hne, -⟩ | ⟨-, hr⟩
  · exact absurd rfl hne
  · exact hr

section Checked
variable {op1 op2 op3 : Field} (s : State) (h1 : op1.toNat < Config.regCount)
  (h2 : op2.toNat < Config.regCount) (h3 : op3.toNat < Config.regCount)

/-- The frame of the four (R160): where the result function gives the pattern of an integer, the handler
completes with that pattern in the destination and nothing else changed, no flag either (R166). -/
theorem execAlu_wraps {result : Word → Word → Except Fault Word} {z : Int}
    (hr : result s.x[op1.toNat] s.x[op2.toNat] = .ok (wrap32 z)) :
    ∃ t, execAlu result op1 op2 op3 s = .next t ∧ Wraps t.x[op3.toNat] z ∧ OnlyRegMayDiffer op3.toNat s t := by
  refine ⟨_, (execAlu_of_lt s h1 h2 h3 result).trans (finish_map_of_ok _ hr), ?written,
    onlyRegMayDiffer_writeReg ..⟩
  case written =>
    rw [getElem_writeReg_self]
    exact wraps_wrap32 z

/-- DIV with a nonzero divisor (R164): the wrapped signed quotient in the destination, and the frame. -/
theorem exec_div_of_ne_zero (hne : s.x[op2.toNat] ≠ 0) :
    ∃ t, exec (.div op1 op2 op3) s = .next t ∧
      Wraps t.x[op3.toNat] (Int.tdiv s.x[op1.toNat].toInt s.x[op2.toNat].toInt) ∧
      OnlyRegMayDiffer op3.toNat s t :=
  execAlu_wraps s h1 h2 h3 (divResult_of_ne_zero _ hne)

include h1 h3 in
/-- DIV with a zero divisor (R164): the fault, which holds no state. -/
theorem exec_div_of_eq_zero (h0 : s.x[op2.toNat] = 0) :
    exec (.div op1 op2 op3) s = .fault .divisionByZero := by
  have hr : divResult s.x[op1.toNat] s.x[op2.toNat] = .error .divisionByZero := h0 ▸ divResult_zero _
  exact (execAlu_of_lt s h1 h2 h3 divResult).trans (finish_map_of_error _ hr)

end Checked

/-- Settles O4: row 3 of the dispatch table, the frame at ADD's result, the index check. -/
theorem addWritesWrappedSum : Obligations.AddWritesWrappedSum :=
  ⟨encodedThreeReg_of_dispatchTable (op := 3) rfl fun _ _ _ => rfl,
    fun _ _ _ s h1 h2 h3 => execAlu_wraps s h1 h2 h3 (result := fun a b => .ok (addResult a b)) rfl,
    fun op1 op2 op3 => faultsOnBadReg_usedRegs (.add op1 op2 op3)⟩

/-- Settles O5: row 4 of the dispatch table, the frame at SUB's result, the index check. -/
theorem subWritesWrappedDifference : Obligations.SubWritesWrappedDifference :=
  ⟨encodedThreeReg_of_dispatchTable (op := 4) rfl fun _ _ _ => rfl,
    fun _ _ _ s h1 h2 h3 => execAlu_wraps s h1 h2 h3 (result := fun a b => .ok (subResult a b)) rfl,
    fun op1 op2 op3 => faultsOnBadReg_usedRegs (.sub op1 op2 op3)⟩

/-- Settles O6: row 5 of the dispatch table, the frame at MUL's result, the index check. -/
theorem mulWritesLowProduct : Obligations.MulWritesLowProduct :=
  ⟨encodedThreeReg_of_dispatchTable (op := 5) rfl fun _ _ _ => rfl,
    fun _ _ _ s h1 h2 h3 => execAlu_wraps s h1 h2 h3 (result := fun a b => .ok (mulResult a b)) rfl,
    fun op1 op2 op3 => faultsOnBadReg_usedRegs (.mul op1 op2 op3)⟩

/-- Settles O7: row 6 of the dispatch table, the two sides of the divisor's test, the index check. -/
theorem divWritesTruncatedSignedQuotient : Obligations.DivWritesTruncatedSignedQuotient :=
  ⟨encodedThreeReg_of_dispatchTable (op := 6) rfl fun _ _ _ => rfl,
    fun _ _ _ s h1 h2 h3 => ⟨exec_div_of_ne_zero s h1 h2 h3, exec_div_of_eq_zero s h1 h2 h3⟩,
    fun op1 op2 op3 => faultsOnBadReg_usedRegs (.div op1 op2 op3)⟩

/-- R169: the quotient of -2^31 and -1 is 2^31, whose pattern is 0x80000000 (the spec's decision D9). -/
theorem wrap32_tdiv_overflow :
    wrap32 (Int.tdiv (0x80000000 : Word).toInt (0xFFFFFFFF : Word).toInt) = 0x80000000 := by decide

/-- Settles O12: the divisor is not zero, so DIV completes as always, and this is the quotient it wraps. -/
theorem divOverflowWrapsToMinimum : Obligations.DivOverflowWrapsToMinimum := by
  intro op1 op2 op3 s h1 h2 h3 hdividend hdivisor
  have hne : s.x[op2.toNat] ≠ 0 := by simp [hdivisor]
  obtain ⟨t, hnext, hwraps, hframe⟩ := exec_div_of_ne_zero s h1 h2 h3 hne
  rw [hdividend, hdivisor, wraps_iff, wrap32_tdiv_overflow] at hwraps
  exact ⟨t, hnext, hwraps, hframe⟩

end Sys2Proof.Machine
end

section
/-! PROOFS, family 44_unimplemented_ops.md. What makes an instruction an unimplemented slot (R180): its row of the
dispatch table binds no field, and its handler raises NotImplemented with its opcode index in every state. The five
slots are such, at the opcode indices 8 to 12, and with those two facts the opcode digit alone settles a step. -/

namespace Sys2Proof.Machine

/-- `i` is an unimplemented slot with opcode index `n` (R180). -/
structure UnimplementedSlot (n : Nat) (i : Instr) : Prop where
  row : dispatchTable[n]? = some fun _ => i
  exec_eq : ∀ s, exec i s = .fault (.notImplemented n)

theorem unimplementedSlot_shl : UnimplementedSlot 8 .shl := ⟨rfl, fun _ => rfl⟩

theorem unimplementedSlot_shr : UnimplementedSlot 9 .shr := ⟨rfl, fun _ => rfl⟩

theorem unimplementedSlot_and : UnimplementedSlot 10 .and := ⟨rfl, fun _ => rfl⟩

theorem unimplementedSlot_or : UnimplementedSlot 11 .or := ⟨rfl, fun _ => rfl⟩

theorem unimplementedSlot_xor : UnimplementedSlot 12 .xor := ⟨rfl, fun _ => rfl⟩

/-- The opcode indices from 8 to 12 are those of the five slots (R85). -/
theorem exists_unimplementedSlot {n : Nat} (hlo : 8 ≤ n) (hhi : n ≤ 12) : ∃ i, UnimplementedSlot n i := by
  match n with
  | 8 => exact ⟨_, unimplementedSlot_shl⟩
  | 9 => exact ⟨_, unimplementedSlot_shr⟩
  | 10 => exact ⟨_, unimplementedSlot_and⟩
  | 11 => exact ⟨_, unimplementedSlot_or⟩
  | 12 => exact ⟨_, unimplementedSlot_xor⟩
  | 0 | 1 | 2 | 3 | 4 | 5 | 6 | 7 => omega
  | n + 13 => omega

namespace UnimplementedSlot
variable {n : Nat} {i : Instr} (slot : UnimplementedSlot n i)
include slot

/-- Every word with the slot's opcode digit is the slot, whatever its other 28 bits hold (R87). -/
theorem decode_eq {w : Word} (hw : hexDigit w 7 = n) : decode w = .ok i := decode_of_hexDigit hw slot.row

/-- HostStep on such a word returns the fault and the state it was given (R191, R220). -/
theorem hostStep_eq {s : State} (hs : hexDigit s.pc 7 = n) : hostStep s = (.fault (.notImplemented n), s) :=
  hostStep_of_fault ((step_of_decode_ok (slot.decode_eq hs)).trans (slot.exec_eq s))

end UnimplementedSlot

/-- The canonical words of the five slots (R93): the opcode digit and zeros. -/
theorem encode_unimplementedSlots : [encode .shl, encode .shr, encode .and, encode .or, encode .xor] =
    [0x80000000, 0x90000000, 0xA0000000, 0xB0000000, 0xC0000000] := by decide

/-- Settles O9: the handler's fault, the canonical words and the decoding slot by slot; then HostStep on the slot
that the opcode digit of `pc` names. -/
theorem unimplementedSlotsAlwaysFault : Obligations.UnimplementedSlotsAlwaysFault := by
  refine ⟨fun s => ?fault, encode_unimplementedSlots, fun w => ?decoded, fun s hlo hhi => ?unchanged⟩
  case fault =>
    exact ⟨unimplementedSlot_shl.exec_eq s, unimplementedSlot_shr.exec_eq s, unimplementedSlot_and.exec_eq s,
      unimplementedSlot_or.exec_eq s, unimplementedSlot_xor.exec_eq s⟩
  case decoded =>
    exact ⟨unimplementedSlot_shl.decode_eq, unimplementedSlot_shr.decode_eq, unimplementedSlot_and.decode_eq,
      unimplementedSlot_or.decode_eq, unimplementedSlot_xor.decode_eq⟩
  case unchanged =>
    obtain ⟨i, slot⟩ := exists_unimplementedSlot hlo hhi
    exact slot.hostStep_eq rfl

end Sys2Proof.Machine
end

section
/-! PROOFS, family 45_host_interface.md. A named special register reads back (R194). The value of a word is that of
its four bytes, so a word just written reads back (R59), which the host's word transactions (R195) pass on. In the
canonical form (log 10) the listed cells are the nonzero bytes in order, so the bytes of a snapshot (R196) determine
the memory. -/

namespace Sys2Proof.Machine

/-! ### The special registers -/

theorem hostGetSpecial_hostSetSpecial (n n' : SpecialReg) (v : Word) (s : State) :
    hostGetSpecial n' (hostSetSpecial n v s) = if n' = n then v else hostGetSpecial n' s := by
  cases n <;> cases n' <;> rfl

/-- Settles O41: what each special register reads after a write of one, and that HostSetPC is the write of
`program_counter`. -/
theorem hostSpecialRegisterAccess : Obligations.HostSpecialRegisterAccess := by
  refine ⟨fun n v s => ⟨hostSetSpecial n v s, rfl, ?readBack, fun n' hn => ?others, hostSetSpecial_x n v s,
    ?memory⟩, fun _ _ => rfl, fun _ _ => rfl⟩
  case readBack => simp only [transact, hostGetSpecial_hostSetSpecial, if_true]
  case others => rw [hostGetSpecial_hostSetSpecial, if_neg hn]
  case memory => simp only [SameMemory, hostSetSpecial_mem, implies_true, and_self]

/-! ### The word transactions -/

/-- R54 read backwards: where the four bytes at an offset are those of a word, the little-endian value is the
word's. -/
theorem wordValue_of_byteValue {m : Memory} {o : Nat} {v : Word}
    (h : ∀ k, k < 4 → (m.byteAt (o + k)).toNat = byteValue v k) : wordValue m o = v.toNat := by
  have h0 : (m.byteAt o).toNat = byteValue v 0 := h 0 (by decide)
  rw [wordValue, h0, h 1 (by decide), h 2 (by decide), h 3 (by decide)]
  simp only [byteValue]
  omega

/-- A word read finds the word whose bytes stand at the offset. -/
theorem Memory.readWord_of_byteValue {m : Memory} {o v : Word} (hb : m.InBounds o)
    (h : ∀ k, k < 4 → (m.byteAt (o.toNat + k)).toNat = byteValue v k) : m.readWord o = .ok v := by
  obtain ⟨r, hr, hval⟩ := Memory.readWord_of_inBounds hb
  have : r = v := BitVec.eq_of_toNat_eq (hval.trans (wordValue_of_byteValue h))
  rw [hr, this]

theorem transact_readWord_of_ok {s : State} {o v : Word} (h : s.mem.readWord o = .ok v) :
    transact (.readWord o) s = (.value v, s) := by
  simp only [transact, hostReadWord, h, replyRead]

theorem transact_readWord_of_error {s : State} {o : Word} {f : Fault} (h : s.mem.readWord o = .error f) :
    transact (.readWord o) s = (.fault f, s) := by
  simp only [transact, hostReadWord, h, replyRead]

theorem transact_writeWord_of_ok {s : State} {o v : Word} {m : Memory} (h : s.mem.writeWord o v = .ok m) :
    transact (.writeWord o v) s = (.ok, { s with mem := m }) := by
  simp only [transact, hostWriteWord, h]
  rfl

theorem transact_writeWord_of_error {s : State} {o v : Word} {f : Fault} (h : s.mem.writeWord o v = .error f) :
    transact (.writeWord o v) s = (.fault f, s) := by
  simp only [transact, hostWriteWord, h]
  rfl

/-- Settles O42: the two sides of the bounds test, each transaction through the memory access it stands for. -/
theorem hostWordAccess : Obligations.HostWordAccess := by
  refine fun o v s => ⟨fun hb => ⟨?read, ?write⟩, fun hlt => ?outOfBounds⟩
  case read =>
    obtain ⟨r, hr, hval⟩ := Memory.readWord_of_inBounds hb
    exact ⟨r, transact_readWord_of_ok hr, hval⟩
  case write =>
    obtain ⟨m, hw, hsize, hbytes, hframe⟩ := Memory.writeWord_of_inBounds v hb
    have hr : m.readWord o = .ok v := Memory.readWord_of_byteValue (hb.trans_eq hsize.symm) hbytes
    exact ⟨{ s with mem := m }, transact_writeWord_of_ok hw, transact_readWord_of_ok hr, hbytes,
      rfl, ⟨rfl, rfl, rfl, rfl⟩, hsize, hframe⟩
  case outOfBounds =>
    exact ⟨transact_readWord_of_error (Memory.readWord_of_lt hlt),
      transact_writeWord_of_error (Memory.writeWord_of_lt v hlt)⟩

/-! ### The canonical form and the snapshot -/

/-- An offset that no cell lists reads as the unlisted value. -/
theorem lookupCell_of_forall_ne {a : Nat} {l : List Host.Cell} (h : ∀ c ∈ l, c.1 ≠ a) :
    lookupCell a l = Memory.unlisted := by
  induction l with
  | nil => rfl
  | cons c cs ih =>
    obtain ⟨hc, hcs⟩ := List.forall_mem_cons.mp h
    rw [lookupCell, if_neg hc, ih hcs]

/-- With rising offsets and no entry of the unlisted value, a cell is listed exactly when it is what its offset
reads as and not the unlisted value. -/
theorem mem_iff_lookupCell {l : List Host.Cell} (hp : l.Pairwise fun c d => c.1 < d.1)
    (hl : ∀ c ∈ l, c.2 ≠ Memory.unlisted) (c : Host.Cell) :
    c ∈ l ↔ lookupCell c.1 l = c.2 ∧ c.2 ≠ Memory.unlisted := by
  induction l with
  | nil => simp [lookupCell, eq_comm]
  | cons d ds ih =>
    obtain ⟨hd, hds⟩ := List.pairwise_cons.mp hp
    obtain ⟨hdv, hdsv⟩ := List.forall_mem_cons.mp hl
    rw [List.mem_cons, lookupCell]
    by_cases h : d.1 = c.1
    · have hnot : c ∉ ds := fun hc => (hd c hc).ne h
      rw [if_pos h, or_iff_left hnot]
      constructor
      · rintro rfl
        exact ⟨rfl, hdv⟩
      · rintro ⟨hv, -⟩
        exact (Prod.ext h hv).symm
    · have hne : c ≠ d := fun hcd => h (hcd ▸ rfl)
      rw [if_neg h, or_iff_right hne, ih hds hdsv]

/-- In the canonical form an offset outside the buffer reads as the unlisted value. -/
theorem Memory.byteAt_of_size_le {m : Memory} (hm : m.wf) {a : Nat} (ha : m.size ≤ a) :
    m.byteAt a = Memory.unlisted :=
  lookupCell_of_forall_ne fun c hc => ((hm.2 c hc).1.trans_le ha).ne

/-- Two memories in the canonical form with one size and the same bytes below it are equal (log 10). -/
theorem Memory.eq_of_byteAt_eq {m m' : Memory} (hm : m.wf) (hm' : m'.wf) (hsize : m.size = m'.size)
    (hbyte : ∀ a, a < m.size → m.byteAt a = m'.byteAt a) : m = m' := by
  have hall (a : Nat) : lookupCell a m.cells = lookupCell a m'.cells := by
    rcases Nat.lt_or_ge a m.size with ha | ha
    · exact hbyte a ha
    · exact (Memory.byteAt_of_size_le hm ha).trans (Memory.byteAt_of_size_le hm' (hsize ▸ ha)).symm
  have hmem (c : Host.Cell) : c ∈ m.cells ↔ c ∈ m'.cells := by
    rw [mem_iff_lookupCell hm.1 (fun c hc => (hm.2 c hc).2), mem_iff_lookupCell hm'.1 (fun c hc => (hm'.2 c hc).2),
      hall]
  have hcells : m.cells = m'.cells := by
    have : Std.Irrefl fun c d : Host.Cell => c.1 < d.1 := ⟨fun _ => lt_irrefl _⟩
    have : Std.Antisymm fun c d : Host.Cell => c.1 < d.1 := ⟨fun _ _ h h' => absurd h' h.asymm⟩
    exact hm.1.eq_of_mem_iff hm'.1 hmem
  cases m
  cases m'
  congr

@[simp] theorem length_hostSnapshot_data (s : State) : (hostSnapshot s).data.length = s.mem.size := by
  simp [hostSnapshot]

/-- A snapshot lists the bytes `M[0]` to `M[MEMSIZE-1]` and no more (R196). -/
theorem getElem?_hostSnapshot_data (s : State) (a : Nat) :
    (hostSnapshot s).data[a]? = if a < s.mem.size then some (s.mem.byteAt a) else none := by
  rw [hostSnapshot, List.getElem?_map]
  split
  · next h => rw [List.getElem?_range h, Option.map_some]
  · next h => rw [List.getElem?_eq_none (by simpa using h), Option.map_none]

/-- The bytes of a snapshot determine a memory in the canonical form. -/
theorem mem_eq_of_hostSnapshot_data_eq {s t : State} (hs : s.mem.wf) (ht : t.mem.wf)
    (h : (hostSnapshot s).data = (hostSnapshot t).data) : s.mem = t.mem := by
  have hsize : s.mem.size = t.mem.size := by
    rw [← length_hostSnapshot_data s, h, length_hostSnapshot_data]
  refine Memory.eq_of_byteAt_eq hs ht hsize fun a ha => ?_
  have hget := congrArg (·[a]?) h
  simpa only [getElem?_hostSnapshot_data, if_pos ha, if_pos (hsize ▸ ha), Option.some.injEq] using hget

/-- Settles O43: the listed bytes, and field by field the state that a snapshot shows. -/
theorem snapshotIsWholeState : Obligations.SnapshotIsWholeState := by
  refine ⟨fun _ => rfl, getElem?_hostSnapshot_data, fun s t hs ht h => ?_⟩
  have hmem : s.mem = t.mem := mem_eq_of_hostSnapshot_data_eq hs ht (congrArg Snapshot.data h)
  obtain ⟨hx, hpc, hma, hmd, hfl, -⟩ := Snapshot.mk.inj h
  cases s
  cases t
  congr

end Sys2Proof.Machine
end

section
/-! PROOFS, family 60_exceptions.md. When each checked operation of the host fails (R225): a register transaction
where its index is no register's, a word transaction where its offset is out of bounds. A reply is a fault exactly
where the operation behind it failed, and then the state is the one before it. -/

namespace Sys2Proof.Machine

/-! ### Where the checked operations fail -/

/-- R193: the index check fails from N on, and its fault names the index. -/
theorem resolveReg_eq_error_iff {i : Nat} {f : Fault} :
    resolveReg i = .error f ↔ Config.regCount ≤ i ∧ f = .registerFault i := by
  rcases Nat.lt_or_ge i Config.regCount with hi | hi
  · simp [resolveReg_of_lt hi, hi]
  · simp [resolveReg_of_ge hi, hi, eq_comm]

/-- R195: a word read fails out of bounds, and its fault names the offset. -/
theorem Memory.readWord_eq_error_iff {m : Memory} {o : Word} {f : Fault} :
    m.readWord o = .error f ↔ m.size < o.toNat + 4 ∧ f = .addressFault o := by
  rcases Nat.lt_or_ge m.size (o.toNat + 4) with ho | ho
  · simp [Memory.readWord_of_lt ho, ho, eq_comm]
  · obtain ⟨v, hv, -⟩ := Memory.readWord_of_inBounds ho
    simp [hv, ho]

/-- R195: a word write fails out of bounds, whatever the word. -/
theorem Memory.writeWord_eq_error_iff {m : Memory} {o v : Word} {f : Fault} :
    m.writeWord o v = .error f ↔ m.size < o.toNat + 4 ∧ f = .addressFault o := by
  rcases Nat.lt_or_ge m.size (o.toNat + 4) with ho | ho
  · simp [Memory.writeWord_of_lt v ho, ho, eq_comm]
  · obtain ⟨m', hm', -⟩ := Memory.writeWord_of_inBounds v ho
    simp [hm', ho]

/-- Putting an operation's answer to use neither adds a fault nor hides one. -/
theorem map_eq_error_iff {α β : Type} {x : Except Fault α} {g : α → β} {f : Fault} :
    g <$> x = .error f ↔ x = .error f := by
  cases x <;> simp [Functor.map, Except.map]

theorem hostGetReg_eq_error_iff {i : Nat} {s : State} {f : Fault} :
    hostGetReg i s = .error f ↔ Config.regCount ≤ i ∧ f = .registerFault i :=
  (map_eq_error_iff (x := resolveReg i) (g := s.readReg)).trans resolveReg_eq_error_iff

theorem hostSetReg_eq_error_iff {i : Nat} {v : Word} {s : State} {f : Fault} :
    hostSetReg i v s = .error f ↔ Config.regCount ≤ i ∧ f = .registerFault i :=
  (map_eq_error_iff (x := resolveReg i) (g := (s.writeReg · v))).trans resolveReg_eq_error_iff

theorem hostWriteWord_eq_error_iff {o v : Word} {s : State} {f : Fault} :
    hostWriteWord o v s = .error f ↔ s.mem.size < o.toNat + 4 ∧ f = .addressFault o :=
  (map_eq_error_iff (x := s.mem.writeWord o v) (β := State) (g := fun mem => { s with mem })).trans
    Memory.writeWord_eq_error_iff

/-! ### What a reply says of its operation -/

theorem replyRead_fst_eq_fault_iff {r : Except Fault Word} {s : State} {f : Fault} :
    (replyRead r s).1 = .fault f ↔ r = .error f := by
  cases r <;> simp [replyRead]

theorem replyWrite_fst_eq_fault_iff {r : Except Fault State} {s : State} {f : Fault} :
    (replyWrite r s).1 = .fault f ↔ r = .error f := by
  cases r <;> simp [replyWrite]

theorem replyRead_snd (r : Except Fault Word) (s : State) : (replyRead r s).2 = s := by
  cases r <;> rfl

/-- A writing transaction that answers a fault has written nothing (R201). -/
theorem replyWrite_snd_of_fault {r : Except Fault State} {s : State} {f : Fault}
    (h : (replyWrite r s).1 = .fault f) : (replyWrite r s).2 = s := by
  rw [replyWrite_fst_eq_fault_iff.mp h]
  rfl

/-! ### Failed transactions -/

/-- R225's "same absence of effect": whatever the transaction, a fault leaves the state as it was. -/
theorem transact_snd_of_fault {t : Transaction} {s : State} {f : Fault} (h : (transact t s).1 = .fault f) :
    (transact t s).2 = s := by
  cases t
  case step => exact congrArg Prod.snd (hostStep_of_fault (hostStep_fst_eq_fault_iff.mp h))
  case setPC | setSpecial => cases h
  case getPC | getSpecial | snapshot => rfl
  case getReg | readWord => exact replyRead_snd _ s
  case setReg | writeWord => exact replyWrite_snd_of_fault h

/-- R225's conditions: the register transactions fail on their index, the word transactions on their offset, and
the rest answer without a check. -/
theorem transact_fst_eq_fault_iff {t : Transaction} {s : State} {f : Fault} (ht : t ≠ .step) :
    (transact t s).1 = .fault f ↔
      (∃ i, Config.regCount ≤ i ∧ f = .registerFault i ∧ (t = .getReg i ∨ ∃ v, t = .setReg i v)) ∨
      ∃ o : Word, s.mem.size < o.toNat + 4 ∧ f = .addressFault o ∧
        (t = .readWord o ∨ ∃ v, t = .writeWord o v) := by
  cases t
  case step => exact absurd rfl ht
  case setPC | getPC | getSpecial | setSpecial | snapshot => simp [transact]
  case getReg => simp [transact, replyRead_fst_eq_fault_iff, hostGetReg_eq_error_iff]
  case readWord => simp [transact, replyRead_fst_eq_fault_iff, hostReadWord, Memory.readWord_eq_error_iff]
  case setReg => simp [transact, replyWrite_fst_eq_fault_iff, hostSetReg_eq_error_iff]
  case writeWord => simp [transact, replyWrite_fst_eq_fault_iff, hostWriteWord_eq_error_iff]

/-- Settles O44: the absence of effect, the conditions of every transaction but HostStep, and HostStep's own. -/
theorem hostTransactionFaults : Obligations.HostTransactionFaults := fun _ _ _ =>
  ⟨transact_snd_of_fault, transact_fst_eq_fault_iff, hostStep_fst_eq_fault_iff⟩

end Sys2Proof.Machine
end

section
/-! PROOFS, the encoding laws (30_encoding.md section 5). A word is its five fields, each read at the weight of its
lowest bit, so field tuples and words are in bijection (R92). On instructions the bijection becomes two laws:
the canonical word decodes to the instruction, and clearing the bits that an instruction does not use leaves
its canonical word (R87). -/

namespace Sys2Proof
open Sys2Proof.Machine

/-! ### Words and field tuples -/

/-- Field tuples with equal field values are equal. -/
theorem Fields.eq_of_toNat_eq {f g : Fields} (hop : f.opcodeIndex.toNat = g.opcodeIndex.toNat)
    (h1 : f.op1.toNat = g.op1.toNat) (h2 : f.op2.toNat = g.op2.toNat) (h3 : f.op3.toNat = g.op3.toNat)
    (hk : f.constant.toNat = g.constant.toNat) : f = g := by
  cases f
  cases g
  rw [Fields.mk.injEq]
  exact ⟨BitVec.eq_of_toNat_eq hop, BitVec.eq_of_toNat_eq h1, BitVec.eq_of_toNat_eq h2,
    BitVec.eq_of_toNat_eq h3, BitVec.eq_of_toNat_eq hk⟩

/-- The fields of a word read back from the sum of the shifted fields. -/
theorem decodeFields_encodeFields (f : Fields) : decodeFields (encodeFields f) = f := by
  have hsum := toNat_encodeFields f
  have h1 := f.op1.isLt
  have h2 := f.op2.isLt
  have h3 := f.op3.isLt
  have hk := f.constant.isLt
  have hop := f.opcodeIndex.isLt
  refine Fields.eq_of_toNat_eq ?opcode ?op1 ?op2 ?op3 ?constant
  case opcode => rw [opcodeIndex_toNat, hexDigit]; omega
  case op1 => rw [op1_toNat, hexDigit]; omega
  case op2 => rw [op2_toNat, hexDigit]; omega
  case op3 => rw [op3_toNat, hexDigit]; omega
  case constant => rw [constant_toNat]; omega

/-- A word is the sum of its upper four digits, shifted, and the constant. -/
theorem encodeFields_decodeFields (w : Word) : encodeFields (decodeFields w) = w := by
  refine BitVec.eq_of_toNat_eq ?_
  rw [toNat_encodeFields, opcodeIndex_toNat, op1_toNat, op2_toNat, op3_toNat, constant_toNat]
  have hw := w.isLt
  simp only [hexDigit]
  omega

/-- Settles O15: the sum of the shifted fields, and its two inverse laws. -/
theorem fieldTupleEncodingIsBijective : Obligations.FieldTupleEncodingIsBijective :=
  ⟨toNat_encodeFields, decodeFields_encodeFields, encodeFields_decodeFields⟩

/-! ### Instructions and their canonical words -/

/-- The row of the dispatch table at an instruction's opcode index makes the instruction of its fields. -/
theorem encodedOpcode (i : Instr) : Laws.EncodedOpcode.Statement i := by
  cases i
  case fetch => exact Laws.EncodedOpcode.fetch ..
  case store => exact Laws.EncodedOpcode.store ..
  case set => exact Laws.EncodedOpcode.set ..
  case add => exact Laws.EncodedOpcode.add ..
  case sub => exact Laws.EncodedOpcode.sub ..
  case mul => exact Laws.EncodedOpcode.mul ..
  case div => exact Laws.EncodedOpcode.div ..
  case setc => exact Laws.EncodedOpcode.setc ..
  case shl => exact Laws.EncodedOpcode.shl
  case shr => exact Laws.EncodedOpcode.shr
  case and => exact Laws.EncodedOpcode.and
  case or => exact Laws.EncodedOpcode.or
  case xor => exact Laws.EncodedOpcode.xor

/-- Settles O16: the canonical word has the instruction's fields, of which its row makes the instruction. -/
theorem decodeOfEncodeIsIdentity : Obligations.DecodeOfEncodeIsIdentity := by
  intro i
  obtain ⟨-, hrow⟩ := encodedOpcode i
  rw [decode_eq_ok_iff, encode, decodeFields_encodeFields]
  exact Option.map_eq_some_iff.mp hrow

/-! ### The bits an instruction uses -/

/-- A mask keeps a bit range that it covers. -/
theorem extractLsb'_and_of_ones {w m : Word} {start len : Nat} (hm : m.extractLsb' start len = BitVec.allOnes len) :
    (w &&& m).extractLsb' start len = w.extractLsb' start len := by
  rw [BitVec.extractLsb'_and, hm, BitVec.and_allOnes]

/-- A mask clears a bit range in which it is zero. -/
theorem extractLsb'_and_of_zeros {w m : Word} {start len : Nat} (hm : m.extractLsb' start len = 0) :
    (w &&& m).extractLsb' start len = 0 := by
  rw [BitVec.extractLsb'_and, hm]
  exact BitVec.and_zero

/-- R86, two register operands: the mask keeps the opcode, `op1` and `op2`. -/
theorem decodeFields_and_twoReg (w : Word) : decodeFields (w &&& 0xFFF00000) =
    ⟨(decodeFields w).opcodeIndex, (decodeFields w).op1, (decodeFields w).op2, 0, 0⟩ := by
  rw [decodeFields, Fields.mk.injEq]
  exact ⟨extractLsb'_and_of_ones rfl, extractLsb'_and_of_ones rfl, extractLsb'_and_of_ones rfl,
    extractLsb'_and_of_zeros rfl, extractLsb'_and_of_zeros rfl⟩

/-- R86, three register operands: the mask keeps all but the constant. -/
theorem decodeFields_and_threeReg (w : Word) : decodeFields (w &&& 0xFFFF0000) =
    ⟨(decodeFields w).opcodeIndex, (decodeFields w).op1, (decodeFields w).op2, (decodeFields w).op3, 0⟩ := by
  rw [decodeFields, Fields.mk.injEq]
  exact ⟨extractLsb'_and_of_ones rfl, extractLsb'_and_of_ones rfl, extractLsb'_and_of_ones rfl,
    extractLsb'_and_of_ones rfl, extractLsb'_and_of_zeros rfl⟩

/-- R86, one register operand and the constant: the mask keeps the opcode, `op1` and the constant. -/
theorem decodeFields_and_regConst (w : Word) : decodeFields (w &&& 0xFF00FFFF) =
    ⟨(decodeFields w).opcodeIndex, (decodeFields w).op1, 0, 0, (decodeFields w).constant⟩ := by
  rw [decodeFields, Fields.mk.injEq]
  exact ⟨extractLsb'_and_of_ones rfl, extractLsb'_and_of_ones rfl, extractLsb'_and_of_zeros rfl,
    extractLsb'_and_of_zeros rfl, extractLsb'_and_of_ones rfl⟩

/-- R86, the unimplemented slots: the mask keeps the opcode. -/
theorem decodeFields_and_opcode (w : Word) :
    decodeFields (w &&& 0xF0000000) = ⟨(decodeFields w).opcodeIndex, 0, 0, 0, 0⟩ := by
  rw [decodeFields, Fields.mk.injEq]
  exact ⟨extractLsb'_and_of_ones rfl, extractLsb'_and_of_zeros rfl, extractLsb'_and_of_zeros rfl,
    extractLsb'_and_of_zeros rfl, extractLsb'_and_of_zeros rfl⟩

/-- The fields of the instruction that row `n` makes of a word with opcode index `n`: the word's own where the
instruction uses them, zero where it does not (R92, D19). -/
theorem fields_of_dispatchTable {w : Word} {n : Nat} {row : Fields → Instr}
    (hn : (decodeFields w).opcodeIndex.toNat = n) (h : dispatchTable[n]? = some row) :
    (row (decodeFields w)).fields = decodeFields (w &&& (row (decodeFields w)).usedBits) := by
  replace hn : (decodeFields w).opcodeIndex = BitVec.ofNat 4 n := by
    rw [← hn, BitVec.ofNat_toNat, BitVec.setWidth_eq]
  match n with
  | 0 | 1 | 2 =>
    cases h
    exact .trans (by rw [hn]; rfl) (decodeFields_and_twoReg w).symm
  | 3 | 4 | 5 | 6 =>
    cases h
    exact .trans (by rw [hn]; rfl) (decodeFields_and_threeReg w).symm
  | 7 =>
    cases h
    exact .trans (by rw [hn]; rfl) (decodeFields_and_regConst w).symm
  | 8 | 9 | 10 | 11 | 12 =>
    cases h
    exact .trans (by rw [hn]; rfl) (decodeFields_and_opcode w).symm
  | n + 13 => cases h

/-- The canonical word of what a word decodes to: the word with the unused bits cleared. -/
theorem encode_of_decode {w : Word} {i : Instr} (h : decode w = .ok i) : encode i = w &&& i.usedBits := by
  obtain ⟨row, hrow, rfl⟩ := decode_eq_ok_iff.mp h
  rw [encode, fields_of_dispatchTable rfl hrow, encodeFields_decodeFields]

/-- Settles O17: forward by the dispatch table's rows; backward the word agrees with the canonical word on the
used bits, so it decodes to the same (R87). -/
theorem decodedWordAgreesOnUsedBits : Obligations.DecodedWordAgreesOnUsedBits := by
  refine fun w i => ⟨encode_of_decode, fun h => ?_⟩
  refine decode_eq_ok_of_and_usedBits_eq (decodeOfEncodeIsIdentity i) ?_
  rw [h, BitVec.and_assoc, BitVec.and_self]

/-- An instruction's opcode index is the highest digit of every word that decodes to it (R85). -/
theorem opcodeIndex_of_decode {w : Word} {i : Instr} (h : decode w = .ok i) :
    i.fields.opcodeIndex.toNat = hexDigit w 7 := by
  have hfields : i.fields = decodeFields (w &&& i.usedBits) := by
    rw [← encode_of_decode h, encode, decodeFields_encodeFields]
  rw [← opcodeIndex_toNat w, hfields]
  exact congrArg BitVec.toNat (extractLsb'_and_of_ones i.extractLsb'_usedBits_opcode)

/-- Settles O20: each listed word is the listed instruction's canonical word but for unused bits, and the last
one's opcode digit has no handler. -/
theorem sampleWordsDecode : Obligations.SampleWordsDecode := by
  have hcanonical {w : Word} {i : Instr} : encode i = w &&& i.usedBits → decode w = .ok i :=
    (decodedWordAgreesOnUsedBits w i).mpr
  exact ⟨hcanonical rfl, hcanonical rfl, hcanonical rfl, hcanonical rfl, hcanonical rfl, hcanonical rfl,
    hcanonical rfl, hcanonical rfl, decode_eq_error_iff_hexDigit.mpr ⟨by decide, rfl⟩⟩

end Sys2Proof
end

section
/-! PROOFS, the invariant (10_state.md R34, R42). It speaks of the memory alone, and the memory changes only by a
word write, in a step as in a transaction, which keeps the canonical form and the size. So a step, a transaction
and, by induction, a session keep it. -/

namespace Sys2Proof.Machine

/-- Going from `s` to `t` keeps the invariant and MEMSIZE. -/
def KeepsInv (s t : State) : Prop := s.Inv → t.Inv ∧ t.mem.size = s.mem.size

theorem KeepsInv.of_mem_eq {s t : State} (h : t.mem = s.mem) : KeepsInv s t := by
  intro hs
  rw [State.Inv, h]
  exact ⟨hs, rfl⟩

theorem KeepsInv.refl (s : State) : KeepsInv s s := .of_mem_eq rfl

theorem KeepsInv.trans {s t u : State} (hst : KeepsInv s t) (htu : KeepsInv t u) : KeepsInv s u := by
  intro hs
  obtain ⟨ht, hsize⟩ := hst hs
  obtain ⟨hu, hsize'⟩ := htu ht
  exact ⟨hu, hsize'.trans hsize⟩

/-- A register write does not touch the memory; a word write keeps the canonical form and the size. -/
theorem OneWrite.keepsInv {s t : State} (h : OneWrite s t) : KeepsInv s t := by
  cases h with
  | reg r v => exact .of_mem_eq (s.writeReg_mem r v)
  | word o v m h =>
    rintro ⟨hlegal, hwf⟩
    obtain ⟨hm, hsize⟩ := Memory.wf_writeWord h hwf
    exact ⟨⟨hsize ▸ hlegal, hm⟩, hsize⟩

/-- Settles O29: a completed step made one write. -/
theorem invariantKeptByEveryStep : Obligations.InvariantKeptByEveryStep :=
  fun _ _ hs h => (oneWrite_of_step h).keepsInv hs

/-- A memory without a listed byte is in the canonical form. -/
theorem State.inv_resetOf {n : Nat} (hn : Config.LegalMemSize n) : (State.resetOf n).Inv :=
  ⟨hn, List.Pairwise.nil, List.forall_mem_nil _⟩

/-- Settles O31: reset lists no byte, and the model's MEMSIZE is legal. -/
theorem invariantHoldsAtReset : Obligations.InvariantHoldsAtReset :=
  ⟨fun _ => State.inv_resetOf, State.inv_resetOf (by decide)⟩

/-! ### Transactions and sessions -/

theorem hostStep_keepsInv (s : State) : KeepsInv s (hostStep s).2 := by
  rcases step_eq_next_or_fault s with ⟨t, h⟩ | ⟨f, h⟩
  · rw [hostStep_of_next h]
    exact (oneWrite_of_step h).keepsInv
  · rw [hostStep_of_fault h]
    exact .refl s

/-- A writing transaction whose operation makes one write leaves that write or, on a fault, none. -/
theorem replyWrite_keepsInv {r : Except Fault State} {s : State} (h : ∀ t, r = .ok t → OneWrite s t) :
    KeepsInv s (replyWrite r s).2 := by
  cases r with
  | ok t => exact (h t rfl).keepsInv
  | error f => exact .refl s

theorem oneWrite_of_hostSetReg {i : Nat} {v : Word} {s t : State} (h : hostSetReg i v s = .ok t) :
    OneWrite s t := by
  obtain ⟨r, -, ⟨⟩⟩ := except_bind_eq_ok.mp h
  exact .reg r v

theorem oneWrite_of_hostWriteWord {o v : Word} {s t : State} (h : hostWriteWord o v s = .ok t) :
    OneWrite s t := by
  obtain ⟨m, hm, ⟨⟩⟩ := except_bind_eq_ok.mp h
  exact .word o v m hm

/-- Every transaction (R190) reads, sets a special register, or makes the one write of a step, of the register
file's `set` or of MemWrite. -/
theorem transact_keepsInv (t : Transaction) (s : State) : KeepsInv s (transact t s).2 := by
  cases t
  case step => exact hostStep_keepsInv s
  case setPC w => exact .of_mem_eq (hostSetPC_mem w s)
  case setSpecial name v => exact .of_mem_eq (hostSetSpecial_mem name v s)
  case getPC | getSpecial | snapshot => exact .refl s
  case getReg | readWord => exact .of_mem_eq (congrArg State.mem (replyRead_snd _ s))
  case setReg => exact replyWrite_keepsInv fun _ => oneWrite_of_hostSetReg
  case writeWord => exact replyWrite_keepsInv fun _ => oneWrite_of_hostWriteWord

theorem session_cons_snd (t : Transaction) (ts : List Transaction) (s : State) :
    (session (t :: ts) s).2 = (session ts (transact t s).2).2 := rfl

theorem session_keepsInv (ts : List Transaction) (s : State) : KeepsInv s (session ts s).2 := by
  induction ts generalizing s with
  | nil => exact .refl s
  | cons t ts ih =>
    rw [session_cons_snd]
    exact (transact_keepsInv t s).trans (ih _)

/-- Settles O30: each transaction of the session keeps it. -/
theorem invariantKeptByEverySession : Obligations.InvariantKeptByEverySession := session_keepsInv

/-! ### Sessions without their faulted transactions -/

theorem session_cons_fst (t : Transaction) (ts : List Transaction) (s : State) :
    (session (t :: ts) s).1 = (transact t s).1 :: (session ts (transact t s).2).1 := rfl

/-- A session is safe when its first transaction is and the rest is from the state that one leaves. -/
theorem safeSession_cons {t : Transaction} {ts : List Transaction} {s : State} :
    SafeSession (t :: ts) s ↔ (∀ f, (transact t s).1 ≠ .fault f) ∧ SafeSession ts (transact t s).2 := by
  simp only [SafeSession, session_cons_fst, List.mem_cons, not_or, forall_and, ne_eq, eq_comm]

/-- A faulted transaction is left out, and the state it leaves is the one before it (R201). -/
theorem withoutFaulted_cons_of_fault {t : Transaction} {s : State} {f : Fault} (h : (transact t s).1 = .fault f)
    (ts : List Transaction) : withoutFaulted (t :: ts) s = withoutFaulted ts s := by
  rw [withoutFaulted, h, transact_snd_of_fault h]

/-- A transaction that does not fault is kept. -/
theorem withoutFaulted_cons_of_ne {t : Transaction} {s : State} (h : ∀ f, (transact t s).1 ≠ .fault f)
    (ts : List Transaction) :
    withoutFaulted (t :: ts) s = t :: withoutFaulted ts (transact t s).2 := by
  rw [withoutFaulted]
  split
  next f hf => exact absurd hf (h f)
  next => rfl

/-- Settles O45: by induction on the session, a faulted transaction being one that does nothing. -/
theorem faultedTransactionsLeaveNoTrace : Obligations.FaultedTransactionsLeaveNoTrace := by
  intro ts s
  induction ts generalizing s with
  | nil => exact ⟨fun _ => List.not_mem_nil, rfl⟩
  | cons t ts ih =>
    by_cases hfault : ∃ f, (transact t s).1 = .fault f
    · obtain ⟨f, hf⟩ := hfault
      rw [withoutFaulted_cons_of_fault hf, session_cons_snd, transact_snd_of_fault hf]
      exact ih s
    · have hne := not_exists.mp hfault
      obtain ⟨hsafe, hsame⟩ := ih (transact t s).2
      rw [withoutFaulted_cons_of_ne hne, safeSession_cons, session_cons_snd, session_cons_snd]
      exact ⟨⟨hne, hsafe⟩, hsame⟩

end Sys2Proof.Machine
end

section
/-! PROOFS, integer arithmetic on words (43_alu_ops.md). A pattern is determined by its integer modulo 2^32 (R13),
and the signed and unsigned readings of a word are the same integer modulo 2^32, so ADD, SUB and MUL are the wrapped
results of both (GK1). DIV's quotient lies in the signed range except for the one overflowing pair, so the signed
reading of the result is the quotient itself, with its magnitude and sign (GK3). -/

namespace Sys2Proof.Machine

/-! ### The two readings of a word -/

/-- Integers that are equal modulo 2^32 have one pattern (R13). -/
theorem wrap32_eq_of_modEq {y z : Int} (h : y ≡ z [ZMOD 2 ^ 32]) : wrap32 y = wrap32 z :=
  wraps_iff.mp ((wraps_wrap32 y).trans h)

/-- A pattern's unsigned reading is its integer modulo 2^32 (R13). -/
theorem toNat_wrap32_modEq (z : Int) : ((wrap32 z).toNat : Int) ≡ z [ZMOD 2 ^ 32] :=
  (congrArg (· % 2 ^ 32) (wraps_wrap32 z)).trans (Int.emod_emod_of_dvd z dvd_rfl)

/-- The two readings of R13 differ by a multiple of 2^32. -/
theorem toNat_modEq_toInt (a : Word) : (a.toNat : Int) ≡ a.toInt [ZMOD 2 ^ 32] := by
  rw [BitVec.toInt_eq_toNat_bmod]
  exact Int.bmod_emod.symm

/-- R161 on the signed readings (GK1). -/
theorem addResult_eq_wrap32_toInt (a b : Word) : addResult a b = wrap32 (a.toInt + b.toInt) :=
  wrap32_eq_of_modEq ((toNat_modEq_toInt a).add (toNat_modEq_toInt b))

/-- R162 on the signed readings (GK1). -/
theorem subResult_eq_wrap32_toInt (a b : Word) : subResult a b = wrap32 (a.toInt - b.toInt) :=
  wrap32_eq_of_modEq ((toNat_modEq_toInt a).sub (toNat_modEq_toInt b))

/-- R163 on the signed readings (GK1). -/
theorem mulResult_eq_wrap32_toInt (a b : Word) : mulResult a b = wrap32 (a.toInt * b.toInt) :=
  wrap32_eq_of_modEq ((toNat_modEq_toInt a).mul (toNat_modEq_toInt b))

section Checked
variable {op1 op2 op3 : Field} (s : State) (h1 : op1.toNat < Config.regCount)
  (h2 : op2.toNat < Config.regCount) (h3 : op3.toNat < Config.regCount)

/-- ADD, SUB and MUL, whose result functions never fault (R160): where the result is the pattern of an integer,
the destination has that pattern. -/
theorem execAlu_ok_wraps {result : Word → Word → Word} {z : Int}
    (hr : result s.x[op1.toNat] s.x[op2.toNat] = wrap32 z) :
    ∃ t, execAlu (fun a b => .ok (result a b)) op1 op2 op3 s = .next t ∧ Wraps t.x[op3.toNat] z := by
  obtain ⟨t, hnext, hwraps, -⟩ := execAlu_wraps s h1 h2 h3 (result := fun a b => .ok (result a b))
    (congrArg Except.ok hr)
  exact ⟨t, hnext, hwraps⟩

end Checked

/-- Settles O10: the frame of the three at their results on the signed readings. -/
theorem addSubMulAgreeSignedAndUnsigned : Obligations.AddSubMulAgreeSignedAndUnsigned :=
  fun _ _ _ s h1 h2 h3 =>
    ⟨execAlu_ok_wraps s h1 h2 h3 (addResult_eq_wrap32_toInt ..),
      execAlu_ok_wraps s h1 h2 h3 (subResult_eq_wrap32_toInt ..),
      execAlu_ok_wraps s h1 h2 h3 (mulResult_eq_wrap32_toInt ..)⟩

/-! ### The quotient of DIV -/

/-- The signed reading of a pattern is its integer, where that is a signed word. -/
theorem toInt_of_wraps {p : Word} {z : Int} (h : Wraps p z) (hlo : -2 ^ 31 ≤ z) (hhi : z < 2 ^ 31) :
    p.toInt = z := by
  rw [wraps_iff.mp h, wrap32, BitVec.toInt_ofInt_eq_self (by decide) hlo hhi]

/-- R169: the quotient of two signed words is a signed word, but for -2^31 and -1. -/
theorem tdiv_mem_signedRange {a b : Word} (h : ¬(a = 0x80000000 ∧ b = 0xFFFFFFFF)) :
    -2 ^ 31 ≤ a.toInt.tdiv b.toInt ∧ a.toInt.tdiv b.toInt < 2 ^ 31 := by
  rw [← BitVec.toInt_sdiv_of_ne_or_ne a b (not_and_or.mp h)]
  exact ⟨BitVec.le_toInt _, BitVec.toInt_lt⟩

/-- A quotient is negative when the operands have opposite signs and it does not round to zero. -/
theorem tdiv_neg_iff (a b : Int) : a.tdiv b < 0 ↔
    ((a < 0 ∧ 0 < b) ∨ (0 < a ∧ b < 0)) ∧ b.natAbs ≤ a.natAbs := by
  rw [← Int.sign_eq_neg_one_iff_neg, Int.sign_tdiv]
  split
  next hlt => simp [hlt]
  next hle =>
    simp only [Int.mul_eq_neg_one_iff_eq_one_or_neg_one, Int.sign_eq_one_iff_pos, Int.sign_eq_neg_one_iff_neg]
    omega

/-- Settles O11: the signed reading of DIV's result is the quotient. -/
theorem divQuotientMagnitudeAndSign : Obligations.DivQuotientMagnitudeAndSign := by
  intro op1 op2 op3 s h1 h2 h3 hne hoverflow
  obtain ⟨t, hnext, hwraps, -⟩ := exec_div_of_ne_zero s h1 h2 h3 hne
  obtain ⟨hlo, hhi⟩ := tdiv_mem_signedRange hoverflow
  refine ⟨t, hnext, ?_⟩
  rw [toInt_of_wraps hwraps hlo hhi]
  exact ⟨Int.natAbs_tdiv .., tdiv_neg_iff ..⟩

/-! ### One register for sources and destination -/

/-- Settles O13: the handlers read both sources from the state before their write (R167). -/
theorem aluAliasedOperandsUseOldValue : Obligations.AluAliasedOperandsUseOldValue := by
  intro r s h
  refine ⟨?add, ?sub, ?mul, fun hne => ?div, exec_div_of_eq_zero s h h h⟩
  case add =>
    have hdouble : addResult s.x[r.toNat] s.x[r.toNat] = wrap32 (2 * s.x[r.toNat].toNat) := by
      rw [addResult, two_mul]
    exact execAlu_ok_wraps s h h h hdouble
  case sub =>
    have hzero : subResult s.x[r.toNat] s.x[r.toNat] = wrap32 0 := by rw [subResult, sub_self]
    obtain ⟨t, hnext, hwraps⟩ := execAlu_ok_wraps s h h h hzero
    exact ⟨t, hnext, wraps_iff.mp hwraps⟩
  case mul =>
    have hsquare : mulResult s.x[r.toNat] s.x[r.toNat] = wrap32 (s.x[r.toNat].toNat ^ 2) := by
      rw [mulResult, sq]
    exact execAlu_ok_wraps s h h h hsquare
  case div =>
    obtain ⟨t, hnext, hwraps, -⟩ := exec_div_of_ne_zero s h h h hne
    have hint : s.x[r.toNat].toInt ≠ 0 := fun h0 => hne (BitVec.toInt_inj.mp h0)
    rw [Int.tdiv_self hint] at hwraps
    exact ⟨t, hnext, wraps_iff.mp hwraps⟩

end Sys2Proof.Machine
end

section
/-! PROOFS, reading after writing. A word is determined byte by byte (R54), so a read after a write has the written
bytes where the two overlap and the old ones elsewhere (R59, R60); the register file's `get` and `set` (R22, R193)
do the same with whole registers. -/

namespace Sys2Proof.Machine

/-! ### Memory -/

/-- R54 read backwards: the bytes of a word that has the little-endian value at an offset are the bytes there. -/
theorem byteValue_of_wordValue {m : Memory} {o : Nat} {v : Word} (h : v.toNat = wordValue m o) {k : Nat}
    (hk : k < 4) : byteValue v k = (m.byteAt (o + k)).toNat := by
  have h0 := (m.byteAt o).isLt
  have h1 := (m.byteAt (o + 1)).isLt
  have h2 := (m.byteAt (o + 2)).isLt
  have h3 := (m.byteAt (o + 3)).isLt
  rw [byteValue, h, wordValue]
  match k with
  | 0 =>
    change _ / 1 % 2 ^ 8 = (m.byteAt o).toNat
    omega
  | 1 | 2 | 3 => omega

/-- A byte read after a word write, in R12's arithmetic. -/
theorem Memory.toNat_byteAt_of_writeWord {m m' : Memory} {o v : Word} (h : m.writeWord o v = .ok m') (a : Nat) :
    (m'.byteAt a).toNat =
      if o.toNat ≤ a ∧ a < o.toNat + 4 then byteValue v (a - o.toNat) else (m.byteAt a).toNat := by
  rcases m.writeWord_spec o v with ⟨-, m'', hw, -, -, hbyte⟩ | ⟨-, hw⟩ <;> cases hw.symm.trans h
  rw [hbyte, apply_ite BitVec.toNat, byteOf_toNat]

/-- A word write that succeeds was in bounds and keeps the size. -/
theorem Memory.inBounds_of_writeWord {m m' : Memory} {o v : Word} (h : m.writeWord o v = .ok m') :
    m.InBounds o ∧ m'.size = m.size := by
  rcases m.writeWord_spec o v with ⟨hb, m'', hw, hsize, -⟩ | ⟨-, hw⟩ <;> cases hw.symm.trans h
  exact ⟨hb, hsize⟩

/-- Settles O38: the bytes after the write, at the written offset and at any other. -/
theorem readAfterWriteSeesLatestBytes : Obligations.ReadAfterWriteSeesLatestBytes := by
  intro m m' o v o' h
  obtain ⟨hb, hsize⟩ := Memory.inBounds_of_writeWord h
  refine ⟨Memory.readWord_of_byteValue (hb.trans_eq hsize.symm) fun k hk => ?same, fun hb' => ?overlap⟩
  case same =>
    have hin : o.toNat ≤ o.toNat + k ∧ o.toNat + k < o.toNat + 4 := by omega
    rw [Memory.toNat_byteAt_of_writeWord h, if_pos hin, Nat.add_sub_cancel_left]
  case overlap =>
    obtain ⟨v', hread, hv'⟩ := Memory.readWord_of_inBounds (m := m') (hb'.trans_eq hsize.symm)
    refine ⟨v', hread, fun k hk => ?_⟩
    rw [byteValue_of_wordValue hv' hk, Memory.toNat_byteAt_of_writeWord h]

/-- Settles O39: in the canonical form the bytes below the size determine the listed cells. -/
theorem equalBytesMeanEqualMemory : Obligations.EqualBytesMeanEqualMemory :=
  fun _ _ => Memory.eq_of_byteAt_eq

/-! ### The register file -/

theorem transact_getReg_of_lt {i : Nat} (h : i < Config.regCount) (s : State) :
    transact (.getReg i) s = (.value s.x[i], s) := by
  simp only [transact, hostGetReg, resolveReg_of_lt h]
  rfl

theorem transact_setReg_of_lt {i : Nat} (h : i < Config.regCount) (v : Word) (s : State) :
    transact (.setReg i v) s = (.ok, s.writeReg ⟨i, h⟩ v) := by
  simp only [transact, hostSetReg, resolveReg_of_lt h]
  rfl

theorem transact_getReg_of_ge {i : Nat} (h : Config.regCount ≤ i) (s : State) :
    transact (.getReg i) s = (.fault (.registerFault i), s) := by
  rw [transact, hostGetReg_eq_error_iff.mpr ⟨h, rfl⟩]
  rfl

theorem transact_setReg_of_ge {i : Nat} (h : Config.regCount ≤ i) (v : Word) (s : State) :
    transact (.setReg i v) s = (.fault (.registerFault i), s) := by
  rw [transact, hostSetReg_eq_error_iff.mpr ⟨h, rfl⟩]
  rfl

/-- Settles O40: the two sides of the index check. -/
theorem hostRegisterAccessContract : Obligations.HostRegisterAccessContract := by
  refine fun i v s => ⟨fun h => ⟨transact_getReg_of_lt h s, ?set⟩, fun h => ?fault⟩
  case set =>
    refine ⟨_, transact_setReg_of_lt h v s, ?readBack, onlyRegMayDiffer_writeReg s i h v⟩
    case readBack => rw [transact_getReg_of_lt h, getElem_writeReg_self]
  case fault => exact ⟨transact_getReg_of_ge h s, transact_setReg_of_ge h v s⟩

end Sys2Proof.Machine
end

section
/-! PROOFS, steps in sequence (40_execution_cycle.md R111, R123). A step is its instruction and leaves `pc`, so the
same instruction runs again on the new state. Two rules of register writes carry the result along: a write of the
value already there changes nothing, and a second write to a register replaces the first. -/

namespace Sys2Proof.Machine

/-! ### The decoded instruction -/

/-- The host's table rows decode through the same decoder (R82). -/
theorem decodeTableWord_eq_some_iff {nbits w : Nat} {i : Instr} :
    decodeTableWord nbits w = some i ↔ decode (tableWord nbits w) = .ok i := by
  cases h : decode (tableWord nbits w) <;> simp [decodeTableWord, h]

/-- Settles O21: the two outcomes of the dispatch check; the placed word is the one in `pc`. -/
theorem stepRunsDecodedInstruction : Obligations.StepRunsDecodedInstruction :=
  ⟨fun _ _ => step_of_decode_ok, fun _ _ => step_of_decode_error,
    fun _ _ _ _ h => step_of_decode_ok (decodeTableWord_eq_some_iff.mp h)⟩

/-! ### Register writes -/

/-- Writing a register the value it holds changes nothing. -/
theorem State.writeReg_readReg (s : State) (r : Reg) : s.writeReg r (s.readReg r) = s := by
  rw [State.writeReg, State.readReg, Fin.getElem_fin, Vector.set_getElem_self]

/-- Of two writes to one register the second remains. -/
theorem State.writeReg_writeReg (s : State) (r : Reg) (u v : Word) :
    (s.writeReg r u).writeReg r v = s.writeReg r v := by
  simp only [State.writeReg, Vector.set_set]

/-! ### The first step after reset -/

/-- After reset every word in bounds reads zero (R41). -/
theorem readWord_resetOf {n : Nat} {o : Word} (h : o.toNat + 4 ≤ n) : (State.resetOf n).mem.readWord o = .ok 0 :=
  Memory.readWord_of_byteValue h fun k _ => by simp [Memory.byteAt_of_cells_nil, byteValue]

/-- Settles O35: the step is FETCH r0, r0 (R39), which loads a zero into a register that holds zero (R38). -/
theorem stepAtResetChangesNothing : Obligations.StepAtResetChangesNothing := by
  rintro n ⟨hmin, -⟩
  have h0 : (0 : Field).toNat < Config.regCount := by decide
  have hread : (State.resetOf n).mem.readWord (State.resetOf n).x[(0 : Field).toNat] = .ok 0 := by
    rw [getElem_resetOf_x n _ h0]
    exact readWord_resetOf (by simpa using hmin)
  have hkept : (State.resetOf n).writeReg ⟨(0 : Field).toNat, h0⟩ 0 = State.resetOf n := by
    rw [← getElem_resetOf_x n _ h0]
    exact State.writeReg_readReg _ _
  calc step (State.resetOf n)
      = exec (.fetch 0 0) (State.resetOf n) := step_of_decode_ok decode_zero
    _ = .next ((State.resetOf n).writeReg ⟨_, h0⟩ 0) :=
        (execFetch_of_lt _ h0 h0).trans (finish_map_of_ok _ hread)
    _ = .next (State.resetOf n) := by rw [hkept]

/-! ### One word stepped again and again -/

/-- A run whose first step completes goes on from the state that step made. -/
theorem core_run_succ {s t : State} (h : step s = .next t) (k : Nat) : core.run (k + 1) s = core.run k t := by
  have hcore : core.step s = .next t := h
  simp only [Host.Core.run, hcore]

/-- `k` steps of ADD rd, rb, rd leave one register changed: `x[rd]` has grown by `k` times `x[rb]`. -/
theorem core_run_add {b d : Field} (hb : b.toNat < Config.regCount) (hd : d.toNat < Config.regCount)
    (hne : b.toNat ≠ d.toNat) (k : Nat) {s : State} (hpc : decode s.pc = .ok (.add d b d)) :
    core.run k s = .next (s.writeReg ⟨d.toNat, hd⟩ (wrap32 (s.x[d.toNat].toNat + k * s.x[b.toNat].toNat))) := by
  induction k generalizing s with
  | zero =>
    have hself : wrap32 (s.x[d.toNat].toNat + (0 : Nat) * s.x[b.toNat].toNat) = s.x[d.toNat] := by
      simp [wrap32]
    rw [hself]
    exact congrArg Host.Outcome.next (s.writeReg_readReg ⟨d.toNat, hd⟩).symm
  | succ k ih =>
    have hstep : step s = .next (s.writeReg ⟨d.toNat, hd⟩ (addResult s.x[d.toNat] s.x[b.toNat])) :=
      (step_of_decode_ok hpc).trans (execAlu_ok_of_lt s hd hb hd addResult)
    refine (core_run_succ hstep k).trans ((ih (s := s.writeReg _ _) hpc).trans (congrArg Host.Outcome.next ?_))
    rw [State.writeReg_writeReg, getElem_writeReg_self, State.writeReg_x, Vector.getElem_set_ne _ _ hne.symm]
    refine congrArg (s.writeReg _) (wrap32_eq_of_modEq ?_)
    calc ((addResult s.x[d.toNat] s.x[b.toNat]).toNat : Int) + k * s.x[b.toNat].toNat
        ≡ s.x[d.toNat].toNat + s.x[b.toNat].toNat + k * s.x[b.toNat].toNat [ZMOD 2 ^ 32] :=
          (toNat_wrap32_modEq _).add_right _
      _ = s.x[d.toNat].toNat + (k + 1 : Nat) * s.x[b.toNat].toNat := by push_cast; ring

/-- Settles O32: the run's state is the one register write. -/
theorem repeatedAddStepsAccumulate : Obligations.RepeatedAddStepsAccumulate := by
  intro k s b d hb hd hpc hne
  refine ⟨_, core_run_add hb hd hne k hpc, ?sum, onlyRegMayDiffer_writeReg ..⟩
  case sum =>
    rw [getElem_writeReg_self]
    exact wraps_wrap32 _

end Sys2Proof.Machine
end

section
/-! PROOFS, non-interference (10_state.md R30 to R32; 20_memory.md R51). A change of the state that the register
operations do not see passes through every handler that uses registers alone; FETCH and STORE also need that the
memory operations do not see it. Another value in the latches and `flags` is seen by neither, another memory by
the memory operations only. -/

namespace Sys2Proof.Machine

/-- The registers do not show the change `g`, which passes through a register write. -/
structure UnseenByRegs (g : State → State) : Prop where
  x_eq : ∀ s, (g s).x = s.x
  writeReg_eq : ∀ s r v, (g s).writeReg r v = g (s.writeReg r v)

/-- The memory does not show the change `g`, which passes through a new memory. -/
structure UnseenByMem (g : State → State) : Prop where
  mem_eq : ∀ s, (g s).mem = s.mem
  setMem_eq : ∀ s m, { g s with mem := m } = g { s with mem := m }

section Unseen
variable {g : State → State} (hg : UnseenByRegs g) (s : State)
include hg

theorem UnseenByRegs.readReg_eq (r : Reg) : (g s).readReg r = s.readReg r := by
  rw [State.readReg, hg.x_eq, State.readReg]

theorem UnseenByRegs.execSet_eq (op1 op2 : Field) : execSet op1 op2 (g s) = mapNext g (execSet op1 op2 s) := by
  simp only [execSet, mapNext_finish, map_bind, map_pure, hg.readReg_eq, hg.writeReg_eq]

theorem UnseenByRegs.execSetc_eq (op1 : Field) (k : Const) :
    execSetc op1 k (g s) = mapNext g (execSetc op1 k s) := by
  simp only [execSetc, mapNext_finish, map_bind, map_pure, hg.writeReg_eq]

theorem UnseenByRegs.execAlu_eq (result : Word → Word → Except Fault Word) (op1 op2 op3 : Field) :
    execAlu result op1 op2 op3 (g s) = mapNext g (execAlu result op1 op2 op3 s) := by
  simp only [execAlu, mapNext_finish, map_bind, map_pure, hg.readReg_eq, hg.writeReg_eq]

theorem UnseenByRegs.execFetch_eq (hm : UnseenByMem g) (op1 op2 : Field) :
    execFetch op1 op2 (g s) = mapNext g (execFetch op1 op2 s) := by
  simp only [execFetch, effectiveOffset, mapNext_finish, map_bind, map_pure, hg.readReg_eq, hm.mem_eq,
    hg.writeReg_eq]

theorem UnseenByRegs.execStore_eq (hm : UnseenByMem g) (op1 op2 : Field) :
    execStore op1 op2 (g s) = mapNext g (execStore op1 op2 s) := by
  simp only [execStore, effectiveOffset, mapNext_finish, map_bind, map_pure, hg.readReg_eq, hm.mem_eq,
    hm.setMem_eq]

/-- A change that registers do not show passes through every instruction but FETCH and STORE, opcode indices 0
and 1, and through those if memory does not show it either. -/
theorem UnseenByRegs.exec_eq {i : Instr} (hm : i.fields.opcodeIndex.toNat ≤ 1 → UnseenByMem g) :
    exec i (g s) = mapNext g (exec i s) := by
  cases i
  case fetch => exact hg.execFetch_eq s (hm (Nat.zero_le 1)) ..
  case store => exact hg.execStore_eq s (hm le_rfl) ..
  case set => exact hg.execSet_eq s ..
  case setc => exact hg.execSetc_eq s ..
  case add => exact hg.execAlu_eq s (fun a b => .ok (addResult a b)) ..
  case sub => exact hg.execAlu_eq s (fun a b => .ok (subResult a b)) ..
  case mul => exact hg.execAlu_eq s (fun a b => .ok (mulResult a b)) ..
  case div => exact hg.execAlu_eq s divResult ..
  case shl | shr | and | or | xor => rfl

/-- The same for a step, if `pc` does not show the change: the dispatch check reads `pc` alone (R112, R113). -/
theorem UnseenByRegs.step_eq (hpc : (g s).pc = s.pc) (hm : hexDigit s.pc 7 ≤ 1 → UnseenByMem g) :
    step (g s) = mapNext g (step s) := by
  cases hd : decode s.pc with
  | ok i =>
    rw [step_of_decode_ok hd, step_of_decode_ok ((congrArg decode hpc).trans hd)]
    exact hg.exec_eq s fun hop => hm ((opcodeIndex_of_decode hd).ge.trans hop)
  | error e =>
    rw [step_of_decode_error hd, step_of_decode_error ((congrArg decode hpc).trans hd), mapNext_fault]

end Unseen

/-- `s` with other values in the latches and `flags`. -/
def State.withLatches (a d f : Word) (s : State) : State := { s with memAddr := a, memData := d, flags := f }

/-- `s` with another memory. -/
def State.withMem (m : Memory) (s : State) : State := { s with mem := m }

theorem unseenByRegs_withLatches (a d f : Word) : UnseenByRegs (State.withLatches a d f) :=
  ⟨fun _ => rfl, fun _ _ _ => rfl⟩

theorem unseenByMem_withLatches (a d f : Word) : UnseenByMem (State.withLatches a d f) :=
  ⟨fun _ => rfl, fun _ _ => rfl⟩

theorem unseenByRegs_withMem (m : Memory) : UnseenByRegs (State.withMem m) :=
  ⟨fun _ => rfl, fun _ _ _ => rfl⟩

/-- Settles O24: neither the registers nor the memory show the latches and `flags`. -/
theorem flagsAndLatchesAreInvisible : Obligations.FlagsAndLatchesAreInvisible :=
  fun s a d f => (unseenByRegs_withLatches a d f).step_eq s rfl fun _ => unseenByMem_withLatches a d f

/-- Settles O25: the registers do not show the memory, and the opcode is not FETCH's or STORE's. -/
theorem onlyFetchAndStoreReachMemory : Obligations.OnlyFetchAndStoreReachMemory :=
  fun s m hfetch hstore => (unseenByRegs_withMem m).step_eq s rfl fun hop => by omega

end Sys2Proof.Machine
end

section
/-! PROOFS, the order of checks (40_execution_cycle.md R116; 60_exceptions.md R218, R219). The fault that an
instruction must report is stated on the instruction: the first bad register field, else the fault of its own rule.
Its handler reports just that, and on the digits of the word in `pc` it is `expectedFault`. -/

namespace Sys2Proof.Machine

/-! ### What an outcome reports -/

/-- The outcome is the fault given, or a next state where none is given. -/
def Reports (o : Host.Outcome State Fault Refusal) : Option Fault → Prop
  | some f => o = .fault f
  | none => ∃ t, o = .next t

theorem Reports.fault_iff {o : Host.Outcome State Fault Refusal} {e : Option Fault} (h : Reports o e) (f : Fault) :
    o = .fault f ↔ e = some f := by
  cases e with
  | some f' => simp [show o = .fault f' from h]
  | none =>
    obtain ⟨t, rfl⟩ := h
    simp

theorem Reports.next_iff {o : Host.Outcome State Fault Refusal} {e : Option Fault} (h : Reports o e) :
    (∃ t, o = .next t) ↔ e = none := by
  cases e with
  | some f => simp [show o = .fault f from h]
  | none => exact iff_of_true h rfl

/-- A handler that ends in an operation's answer reports what the operation fails with. -/
theorem reports_finish_map {α : Type} {x : Except Fault α} {g : α → State} {e : Option Fault}
    (h : ∀ f, x = .error f ↔ e = some f) : Reports (finish (g <$> x)) e := by
  cases x with
  | ok a =>
    have he : e = none := Option.eq_none_iff_forall_ne_some.mpr fun f hf => nomatch (h f).mpr hf
    subst he
    exact ⟨g a, rfl⟩
  | error f =>
    rw [(h f).mp rfl]
    rfl

/-! ### The fault of an instruction -/

/-- The fault of an instruction's own rule, its register fields being below N (R141, R142, R164, R180). -/
def ruleFault (s : State) : Instr → Option Fault
  | .fetch op1 _ =>
    if s.mem.size < (regValue s op1.toNat).toNat + 4 then some (.addressFault (regValue s op1.toNat)) else none
  | .store _ op2 =>
    if s.mem.size < (regValue s op2.toNat).toNat + 4 then some (.addressFault (regValue s op2.toNat)) else none
  | .div _ op2 _ => if regValue s op2.toNat = 0 then some .divisionByZero else none
  | .shl => some (.notImplemented 8)
  | .shr => some (.notImplemented 9)
  | .and => some (.notImplemented 10)
  | .or => some (.notImplemented 11)
  | .xor => some (.notImplemented 12)
  | .set _ _ | .add _ _ _ | .sub _ _ _ | .mul _ _ _ | .setc _ _ => none

/-- The fault an instruction must report: RegisterFault of the first bad field (R115), else its rule's. -/
def instrFault (s : State) (i : Instr) : Option Fault :=
  match firstBadReg i.usedRegs with
  | some n => some (.registerFault n)
  | none => ruleFault s i

theorem instrFault_of_some {s : State} {i : Instr} {n : Nat} (h : firstBadReg i.usedRegs = some n) :
    instrFault s i = some (.registerFault n) := by
  simp only [instrFault, h]

theorem instrFault_of_none {s : State} {i : Instr} (h : firstBadReg i.usedRegs = none) :
    instrFault s i = ruleFault s i := by
  simp only [instrFault, h]

/-- DIV's arithmetic fails exactly on a zero divisor (R164). -/
theorem divResult_eq_error_iff {a b : Word} {f : Fault} :
    divResult a b = .error f ↔ b = 0 ∧ f = .divisionByZero := by
  by_cases hb : b = 0
  · rw [hb, divResult_zero]
    simp [eq_comm]
  · rw [divResult_of_ne_zero a hb]
    exact iff_of_false nofun fun ⟨h0, _⟩ => hb h0

/-- On checked register fields an instruction reports the fault of its rule, or completes. -/
theorem reports_ruleFault {i : Instr} (h : i.WellFormed) (s : State) : Reports (exec i s) (ruleFault s i) := by
  cases i <;> simp only [Instr.WellFormed, Instr.usedRegs, List.forall_mem_cons] at h
  case fetch =>
    obtain ⟨h1, h2, -⟩ := h
    rw [exec, execFetch_of_lt s h1 h2, ruleFault, regValue_of_lt h1]
    exact reports_finish_map fun f => by simp [Memory.readWord_eq_error_iff, eq_comm (a := f)]
  case store =>
    obtain ⟨h1, h2, -⟩ := h
    rw [exec, execStore_of_lt s h1 h2, ruleFault, regValue_of_lt h2]
    exact reports_finish_map fun f => by simp [Memory.writeWord_eq_error_iff, eq_comm (a := f)]
  case div =>
    obtain ⟨h1, h2, h3, -⟩ := h
    rw [exec, execDiv, execAlu_of_lt s h1 h2 h3, ruleFault, regValue_of_lt h2]
    exact reports_finish_map fun f => by simp [divResult_eq_error_iff, eq_comm (a := f)]
  case set =>
    obtain ⟨h1, h2, -⟩ := h
    exact ⟨_, execSet_of_lt s h1 h2⟩
  case setc =>
    obtain ⟨h1, -⟩ := h
    exact ⟨_, execSetc_of_lt s h1 _⟩
  case add | sub | mul =>
    obtain ⟨h1, h2, h3, -⟩ := h
    exact ⟨_, execAlu_ok_of_lt s h1 h2 h3 _⟩
  case shl | shr | and | or | xor => rfl

/-- R115 comes first: every instruction reports the fault it must. -/
theorem reports_exec (i : Instr) (s : State) : Reports (exec i s) (instrFault s i) := by
  cases h : firstBadReg i.usedRegs with
  | some n =>
    rw [instrFault_of_some h]
    exact faultsOnBadReg_usedRegs i s n h
  | none =>
    rw [instrFault_of_none h]
    exact reports_ruleFault (firstBadReg_usedRegs_eq_none_iff.mp h) s

/-! ### The fault of a word -/

/-- The first bad register field is the first bad one of the digits that the opcode uses (R115). -/
theorem firstBadReg_of_decode {w : Word} {i : Instr} (h : decode w = .ok i) : firstBadReg i.usedRegs =
    ((usedDigits (hexDigit w 7)).find? fun k => Config.regCount ≤ hexDigit w k).map (hexDigit w) := by
  obtain ⟨-, -, hdigits⟩ := registerIndexCheckInFieldOrder
  have hmap := congrArg (List.find? fun n => decide (Config.regCount ≤ n)) (hdigits w i h)
  rw [List.find?_map, List.find?_map] at hmap
  exact hmap

/-- The fault of the instruction's own rule, on the digits of the word (R86). -/
theorem ruleFault_of_decode {s : State} {i : Instr} (h : decode s.pc = .ok i) :
    ruleFault s i =
      if 8 ≤ hexDigit s.pc 7 then some (.notImplemented (hexDigit s.pc 7))
      else if hexDigit s.pc 7 = 0 ∧ s.mem.size < (regValue s (hexDigit s.pc 6)).toNat + 4 then
        some (.addressFault (regValue s (hexDigit s.pc 6)))
      else if hexDigit s.pc 7 = 1 ∧ s.mem.size < (regValue s (hexDigit s.pc 5)).toNat + 4 then
        some (.addressFault (regValue s (hexDigit s.pc 5)))
      else if hexDigit s.pc 7 = 6 ∧ regValue s (hexDigit s.pc 5) = 0 then some .divisionByZero
      else none := by
  obtain ⟨row, hrow, rfl⟩ := decode_eq_ok_iff.mp h
  rw [← op1_toNat, ← op2_toNat]
  rw [opcodeIndex_toNat] at hrow
  generalize hexDigit s.pc 7 = n at hrow ⊢
  match n with
  | 0 | 1 | 2 | 3 | 4 | 5 | 6 | 7 | 8 | 9 | 10 | 11 | 12 =>
    cases hrow
    simp [ruleFault]
  | n + 13 => cases hrow

/-- `expectedFault` reads off the word what its instruction must report. -/
theorem expectedFault_of_decode {s : State} {i : Instr} (h : decode s.pc = .ok i) :
    expectedFault s = instrFault s i := by
  have hlegal : ¬Config.handlerCount ≤ hexDigit s.pc 7 := fun hge =>
    nomatch h.symm.trans (decode_eq_error_iff_hexDigit.mpr ⟨hge, rfl⟩)
  have hbad := firstBadReg_of_decode h
  have hrule := ruleFault_of_decode h
  by_cases h8 : 8 ≤ hexDigit s.pc 7
  · have hnone : usedDigits (hexDigit s.pc 7) = [] := by
      rw [usedDigits, if_neg (by omega), if_neg (by omega), if_neg (by omega)]
    rw [hnone] at hbad
    rw [instrFault_of_none hbad, hrule]
    simp only [expectedFault, if_neg hlegal, if_pos h8]
  · cases hfind : (usedDigits (hexDigit s.pc 7)).find? fun k => Config.regCount ≤ hexDigit s.pc k with
    | some k =>
      rw [hfind] at hbad
      simp only [instrFault_of_some hbad, expectedFault, if_neg hlegal, if_neg h8, hfind]
    | none =>
      rw [hfind] at hbad
      simp only [instrFault_of_none hbad, hrule, expectedFault, if_neg hlegal, if_neg h8, hfind]

/-- A step reports exactly `expectedFault` (R116, R219). -/
theorem reports_step (s : State) : Reports (step s) (expectedFault s) := by
  cases hd : decode s.pc with
  | ok i =>
    rw [step_of_decode_ok hd, expectedFault_of_decode hd]
    exact reports_exec i s
  | error e =>
    obtain ⟨n⟩ := e
    obtain ⟨hn, rfl⟩ := decode_eq_error_iff_hexDigit.mp hd
    rw [step_of_decode_error hd, expectedFault, if_pos hn]
    rfl

/-- Settles O27: a step reports `expectedFault` and nothing else. -/
theorem stepFaultIsFirstInCheckOrder : Obligations.StepFaultIsFirstInCheckOrder :=
  fun s => ⟨(reports_step s).fault_iff, (reports_step s).next_iff⟩

/-! ### The table of faults -/

/-- A bad register field is one of the fields. -/
theorem mem_of_firstBadReg {used : List Field} {n : Nat} (h : firstBadReg used = some n) :
    n ∈ used.map (·.toNat) := by
  obtain ⟨f, hf, rfl⟩ := Option.map_eq_some_iff.mp h
  exact List.mem_map_of_mem (List.mem_of_find?_eq_some hf)

/-- R218: every instruction that uses a register field can raise RegisterFault of it. -/
theorem mayRaise_registerFault {i : Instr} {n : Nat} (h : n ∈ i.usedRegs.map (·.toNat)) :
    mayRaise i (.registerFault n) := by
  cases i
  case fetch | store | div => exact .inl ⟨n, rfl, h⟩
  case set | add | sub | mul => exact ⟨n, rfl, h⟩
  case setc => exact congrArg Fault.registerFault (List.mem_singleton.mp h)
  case shl | shr | and | or | xor => exact absurd h List.not_mem_nil

/-- R218: the table lists the fault of every instruction's own rule. -/
theorem mayRaise_ruleFault {i : Instr} {s : State} {f : Fault} (h : ruleFault s i = some f) : mayRaise i f := by
  cases i <;> simp only [ruleFault, Option.ite_none_right_eq_some, Option.some.injEq] at h
  case fetch | store =>
    obtain ⟨-, rfl⟩ := h
    exact .inr ⟨_, rfl⟩
  case div =>
    obtain ⟨-, rfl⟩ := h
    exact .inr rfl
  case set | add | sub | mul | setc => cases h
  case shl | shr | and | or | xor => exact h.symm

theorem mayRaise_instrFault {i : Instr} {s : State} {f : Fault} (h : instrFault s i = some f) : mayRaise i f := by
  cases hbad : firstBadReg i.usedRegs with
  | some n =>
    rw [instrFault_of_some hbad] at h
    cases h
    exact mayRaise_registerFault (mem_of_firstBadReg hbad)
  | none => exact mayRaise_ruleFault ((instrFault_of_none hbad).symm.trans h)

/-- An opcode digit of 8 or more is InvalidOpcode or NotImplemented, whatever the state (R219). -/
theorem expectedFault_ne_none {s : State} (h : 8 ≤ hexDigit s.pc 7) : expectedFault s ≠ none := by
  by_cases hillegal : Config.handlerCount ≤ hexDigit s.pc 7
  · simp only [expectedFault, if_pos hillegal]
    nofun
  · simp only [expectedFault, if_neg hillegal, if_pos h]
    nofun

/-- Settles O28: an instruction reports only what it must, which the table lists; and from opcode digit 8 on
there is a fault to report. -/
theorem faultsByInstructionTable : Obligations.FaultsByInstructionTable := by
  refine ⟨fun i s f h => mayRaise_instrFault (((reports_exec i s).fault_iff f).mp h), fun s t h => ?_⟩
  have hnone := (reports_step s).next_iff.mp ⟨t, h⟩
  exact Nat.not_lt.mp fun hop => expectedFault_ne_none hop hnone

end Sys2Proof.Machine
end
